-- ==== Sys2Proof/Word.lean ====
section
/-! DEFINITION. The words the VLI codec core is built from (spec/00_scope.md R7, R8). -/

namespace Sys2Proof

/-- One stream byte: 8 bits, bit 7 the most significant (R7, R9, R36). -/
abbrev Byte := BitVec 8

/-- A value of the codec: an unsigned 64-bit integer, the sole payload type (R7, R18). -/
abbrev Value := BitVec 64

/-- The 66-bit command word CMD (R8, R67). -/
abbrev CommandWord := BitVec 66

/-- The 74-bit response word RESP (R8, R71). -/
abbrev ResponseWord := BitVec 74

/-- The width of CLS, IDX, RESP.CLASS and RESP.COUNT: CLASS_W = COUNT_W = 4 (R8, R20, R71). -/
abbrev Nibble := BitVec 4

/-- The width of OP: OP_W = 2 (R8, R68). -/
abbrev Opcode := BitVec 2

/-- The width of RESP.STATUS: STATUS_W = 2 (R8, R72). -/
abbrev Status := BitVec 2

end Sys2Proof
end

