-- ==== Sys2Proof/Machine/Classes.lean ====
section
/-! DEFINITION. Classes and their named constants (spec/30_encoding.md R50, R63) and the two class tests of the
classifier (spec/40_classifier.md R77, R80). Classes are numbers here; a register holds one in 4 bits. -/

namespace Sys2Proof.Machine

/-- maxForClass(i), the largest value of class i (R50). -/
def maxForClass (i : Nat) : Nat := if i ≤ 7 then 2 ^ (7 * (i + 1)) - 1 else 2 ^ 64 - 1

/-- minForClass(i), the smallest value of class i (R50). -/
def minForClass (i : Nat) : Nat := if i = 0 then 0 else maxForClass (i - 1) + 1

/-- PFX(i), the prefix ones with the terminator bit clear (R63). -/
def pfx (i : Nat) : Byte := if i ≤ 7 then BitVec.ofNat 8 (256 - 2 ^ (8 - i)) else 0xFF#8

/-- THR(i), the largest byte whose top i bits are one and whose bit 7-i is zero (R63). -/
def thr (i : Nat) : Byte := if i ≤ 7 then pfx i + BitVec.ofNat 8 (2 ^ (7 - i)) - 1#8 else 0xFF#8

/-- LIT(i), the mask of the literal bits of e0 (R63). -/
def lit (i : Nat) : Byte := if i ≤ 7 then BitVec.ofNat 8 (2 ^ (7 - i) - 1) else 0x00#8

/-- HDR(i), the mask of the prefix and terminator bits of e0 (R63). -/
def hdr (i : Nat) : Byte := if i ≤ 7 then BitVec.ofNat 8 (256 - 2 ^ (7 - i)) else 0xFF#8

/-- The first of the classes 0 to 7 that fits, tested in increasing order, and 8 where none does: the shape that R77
and R80 share. -/
def firstClass (fits : Nat → Bool) : Nat :=
  if fits 0 then 0
  else if fits 1 then 1
  else if fits 2 then 2
  else if fits 3 then 3
  else if fits 4 then 4
  else if fits 5 then 5
  else if fits 6 then 6
  else if fits 7 then 7
  else 8

/-- classify(x), the class the encoder uses (R77). -/
def classify (x : Value) : Nat := firstClass fun i => decide (x.toNat ≤ maxForClass i)

/-- prefixClass(c), the decoder's class test on a first byte (R80). -/
def prefixClass (c : Byte) : Nat := firstClass fun i => decide (c.toNat ≤ (thr i).toNat)

end Sys2Proof.Machine
end

