-- ==== Sys2Proof/Config.lean ====
section
/-! DEFINITION. The free values of the model: constants with no body, so that nothing can be proved of what they are.
A reset step draws the values that spec/70_reset_and_hazards.md R118 leaves unspecified from them, applied to
State.freeCount (log entry 4). The spec's other open parameters are arguments: SOURCE, SINK, SOURCE_FAIL_EFFECT and
SINK_FAIL_EFFECT are data of State (log entries 7 to 10), N_INSTANCES and PLATFORM_MAP are arguments of the platform (entries 16 and
17). -/

namespace Sys2Proof.Config

/-- DATA after the n-th draw of a reset step: unspecified (R118, I9). -/
opaque resetData : Nat → Value

/-- CLS after the n-th draw of a reset step: unspecified (R118, I9). -/
opaque resetCls : Nat → Nibble

/-- IDX after the n-th draw of a reset step: unspecified (R118, I9). -/
opaque resetIdx : Nat → Nibble

/-- RESP after the n-th draw of a reset step: unspecified (R118, I9). -/
opaque resetResp : Nat → ResponseWord

end Sys2Proof.Config
end

