-- ==== Sys2Proof/Machine/State.lean ====
section
/-! DEFINITION. The state of one instance of the VLI codec core: the transaction state of spec/10_state.md R20 and, as
plain data, the host, the byte source and the byte sink around it (log entry 1); the reasons a step can stop; reset. -/

namespace Sys2Proof.Machine

/-- MODE (R20, R21). R21 allows a three-constructor type: the value 3 is never held. -/
inductive Mode where
  /-- 0: no ENCODE or DECODE is in progress. -/
  | idle
  /-- 1: an ENCODE has been accepted and has not yet responded. -/
  | enc
  /-- 2: a DECODE has been accepted and has not yet responded. -/
  | dec
deriving DecidableEq, Repr

/-- RESP, the 74-bit response word, by its fields (R71). STATUS keeps its 2 bits, so that the code 0b11, which the block
never produces (R72), can be told from the others. -/
structure Response where
  /-- RESP[73:72] (R72). -/
  status : Status
  /-- RESP[71:68]: the class, or 0 when no class was found. -/
  cls : Nibble
  /-- RESP[67:64]: the encoded length, or the bytes transferred. -/
  count : Nibble
  /-- RESP[63:0]: the decoded value of a successful DECODE, else 0. -/
  value : Value
deriving DecidableEq, Repr

/-- What the byte source answers to one read (R33). -/
inductive SrcAnswer where
  /-- The next byte of the source, now consumed. -/
  | byte (b : Byte)
  /-- The source has no more bytes. -/
  | exhausted
  /-- The source reports an error. -/
  | ioFail
deriving DecidableEq, Repr

/-- What the byte sink answers to one write (R34). -/
inductive SinkAnswer where
  /-- The byte has been appended and is never taken back. -/
  | ok
  /-- The sink reports an error; `left` is what the failing write leaves on the sink, SINK_FAIL_EFFECT (D11: nothing, the
  byte, or anything; log entry 9). -/
  | ioFail (left : List Byte)
deriving DecidableEq, Repr

/-- An attached byte source: its answers to the reads still to come, in order (none left: it withholds its answer), and the
bytes consumed from it so far, oldest first. What follows an `ioFail` is SOURCE_FAIL_EFFECT (D10; log entry 10). -/
structure Source where
  answers : List SrcAnswer
  consumed : List Byte
deriving DecidableEq, Repr

/-- An attached byte sink: the bytes on it, oldest first, and its answers to the writes still to come, in order (none left:
it withholds its answer). -/
structure Sink where
  held : List Byte
  answers : List SinkAnswer
deriving DecidableEq, Repr

/-- The state of one instance and of the environment bound to it. -/
structure State where
  /-- MODE (R21). -/
  mode : Mode
  /-- DATA (R22). -/
  data : Value
  /-- CLS (R23). -/
  cls : Nibble
  /-- IDX (R24). -/
  idx : Nibble
  /-- RESP (R25). -/
  resp : Response
  /-- RESP_VALID (R25). -/
  respValid : Bool
  /-- Environment: the reset signal's level at each of the next steps; it stays low after the last (R120; log entry 19). -/
  resetLine : List Bool
  /-- Environment: the command words of the host's program not yet accepted; the front one is presented (R67, R70). -/
  cmdPort : List CommandWord
  /-- Environment: how many responses the host stands ready to take (R25; log entry 14). -/
  hostTakes : Nat
  /-- Environment: the responses the host has taken, oldest first (R122). -/
  taken : List Response
  /-- Environment: the attached byte source, SOURCE (R32, D21). -/
  source : Option Source
  /-- Environment: the attached byte sink, SINK (R32, D21). -/
  sink : Option Sink
  /-- The model's own: how many times free values have been drawn (log entry 4). -/
  freeCount : Nat
deriving DecidableEq, Repr

/-- Why a step gives no next state. The four `wait` reasons are no faults of the hardware: they are the holds of the spec,
in which no step is possible until the environment moves (R117, R127, I2, I4; log entry 2). -/
inductive Fault where
  /-- Raised by an idle block with no command presented (R117, R119). Safe: no step exists. -/
  | waitCommand
  /-- Raised by an idle block whose response the host has not taken (R25, R26). Safe: no step exists. -/
  | waitTake
  /-- Raised by a DECODE whose source withholds its answer (R33, R127). Safe: no step exists. -/
  | waitSource
  /-- Raised by an ENCODE whose sink withholds its answer (R34, R127). Safe: no step exists. -/
  | waitSink
  /-- Raised by the host's take of a response with STATUS 0b11, which this block never produces (R72, R73, I13). Safe: no
  run from reset reaches it. -/
  | statusNeverProduced
  /-- Raised by an ENCODE write step with IDX above CLS, where R90's `encode(R.DATA)[k]` has no byte. Safe: no run from
  reset reaches it (R24; log entry 12). -/
  | indexOutOfRange
  /-- Raised by a DECODE read step that completes a class above 8, which CLS never holds (R20, R23). Safe: no run from
  reset reaches it (log entry 12). -/
  | classOutOfRange
deriving DecidableEq, Repr

/-- Why an instruction or a move is refused. -/
inductive Refusal where
  /-- Raised by exec for an instruction with no meaning yet. Safe: the run ends. -/
  | notModelled (mnemonic : String)
  /-- Raised by DECODE where no byte source is attached: the host has no such move (R32, I18; log entry 8). Safe. -/
  | noSourceAttached
  /-- Raised by ENCODE where no byte sink is attached: the host has no such move (R32, I18; log entry 8). Safe. -/
  | noSinkAttached
  /-- Raised by a platform's schedule that names an instance the platform does not have (R114; log entry 16). Safe. -/
  | noSuchInstance
deriving DecidableEq, Repr

/-- The machine right after reset: MODE = IDLE and RESP_VALID = 0 (R118). DATA, CLS, IDX and RESP have no reset value in
the spec; 0 is a DESIGN CHOICE (log entry 3). Nothing is presented, asserted or attached yet (R119, R121). -/
def State.reset : State where
  mode := .idle
  data := 0#64
  cls := 0#4
  idx := 0#4
  resp := { status := 0#2, cls := 0#4, count := 0#4, value := 0#64 }
  respValid := false
  resetLine := []
  cmdPort := []
  hostTakes := 0
  taken := []
  source := none
  sink := none
  freeCount := 0

end Sys2Proof.Machine
end

