-- ==== Sys2Proof/Machine/Flags.lean ====
section
/-! DEFINITION. The flag-like state of the block is RESP.STATUS (spec/10_state.md R27): its codes (spec/30_encoding.md
R72), the layout of the response word around it (R71), and the 2-bit code of MODE (spec/10_state.md R20). -/

namespace Sys2Proof.Machine

/-- STATUS OK: the command completed (R72). -/
def statusOk : Status := 0b00#2

/-- STATUS TRUNCATED: truncated input (R72, R103). -/
def statusTruncated : Status := 0b01#2

/-- STATUS IO_ERROR: I/O failure (R72, R104). -/
def statusIoError : Status := 0b10#2

/-- STATUS 0b11, never produced (R72, R73). -/
def statusNever : Status := 0b11#2

/-- The two error kinds, and there is no other (R102). -/
inductive ErrorKind where
  /-- The source is exhausted before CLS + 1 bytes have been read (R103). -/
  | truncated
  /-- The source or the sink reports an error (R104). -/
  | ioError
deriving DecidableEq, Repr

/-- The status code that records an error (R103, R104). -/
def ErrorKind.status : ErrorKind → Status
  | .truncated => statusTruncated
  | .ioError => statusIoError

/-- The 74-bit response word STATUS ++ CLASS ++ COUNT ++ VALUE (R71). -/
def Response.toWord (r : Response) : ResponseWord := r.status ++ r.cls ++ r.count ++ r.value

/-- The fields of a 74-bit response word (R71). -/
def Response.ofWord (w : ResponseWord) : Response where
  status := w.extractLsb' 72 2
  cls := w.extractLsb' 68 4
  count := w.extractLsb' 64 4
  value := w.extractLsb' 0 64

/-- The 2-bit code of MODE: 0 = IDLE, 1 = ENC, 2 = DEC; 3 is never held (R20, R21). -/
def Mode.code : Mode → BitVec 2
  | .idle => 0b00#2
  | .enc => 0b01#2
  | .dec => 0b10#2

end Sys2Proof.Machine
end

