-- ==== Sys2Proof/Syntax.lean ====
section
/-! DEFINITION. The instructions: one constructor per row of spec/opcode_table.json. The first four are the commands of
the command port (spec/30_encoding.md R68), the other nine the wire format, which R2 calls the block's instruction set. -/

namespace Sys2Proof

/-- The instruction set. A wire instruction carries the value x of its literal bits (R54 to R62); that x fits the class is
the check of Instr.wellFormed. -/
inductive Instr where
  /-- CLASSIFY x (R83). -/
  | classify (x : Value)
  /-- ENCODE x (R89). -/
  | encode (x : Value)
  /-- DECODE; all of ARG is ignored (R69, R98). -/
  | decode
  /-- PCLASS c with c = ARG[7:0]; ARG[63:8] is ignored (R69, R84). -/
  | pclass (c : Byte)
  /-- VLI.C0, 1 byte, `0vvvvvvv` (R54). -/
  | vliC0 (x : Value)
  /-- VLI.C1, 2 bytes, `10vvvvvv` and one literal byte (R55). -/
  | vliC1 (x : Value)
  /-- VLI.C2, 3 bytes, `110vvvvv` and two literal bytes (R56). -/
  | vliC2 (x : Value)
  /-- VLI.C3, 4 bytes, `1110vvvv` and three literal bytes (R57). -/
  | vliC3 (x : Value)
  /-- VLI.C4, 5 bytes, `11110vvv` and four literal bytes (R58). -/
  | vliC4 (x : Value)
  /-- VLI.C5, 6 bytes, `111110vv` and five literal bytes (R59). -/
  | vliC5 (x : Value)
  /-- VLI.C6, 7 bytes, `1111110v` and six literal bytes (R60). -/
  | vliC6 (x : Value)
  /-- VLI.C7, 8 bytes, `11111110` and seven literal bytes (R61). -/
  | vliC7 (x : Value)
  /-- VLI.C8, 9 bytes, `11111111` and eight literal bytes (R62). -/
  | vliC8 (x : Value)
deriving DecidableEq, Repr

end Sys2Proof
end

