-- ==== Sys2Proof/Machine/Ops.lean ====
section
/-! DEFINITION. The shared operations: readiness (spec/10_state.md R26), the response slot (R25), the two transfer
primitives (spec/00_scope.md R11, spec/20_memory.md R33, R34), taking an error (spec/60_exceptions.md R106) and reset
(spec/70_reset_and_hazards.md R118, R120). The block has no return from an error (R108). -/

namespace Sys2Proof.Machine

/-- CMD_READY = (MODE = IDLE and RESP_VALID = 0), computed, not stored (R26). -/
def cmdReady (s : State) : Bool := decide (s.mode = .idle) && !s.respValid

/-- `respond(status, class, count, value)`: all four fields and RESP_VALID in one step (R11, R25). -/
def respond (status : Status) (cls count : Nibble) (value : Value) (s : State) : State :=
  { s with
    resp := { status := status, cls := cls, count := count, value := value }
    respValid := true }

/-- `raise`: taking an error (R11, R106). MODE goes to IDLE and the response reports the error's status, the class found
so far, COUNT = the transfers that succeeded, which is IDX (R24, R105), and VALUE = 0. No further transfer is made and
nothing on a stream is undone. -/
def raise (e : ErrorKind) (cls : Nibble) (s : State) : State :=
  respond e.status cls s.idx 0#64 { s with mode := .idle }

/-- A reset step: R118's values. The fields it leaves unspecified become free values (log entry 4). The streams, the
command port and what the host has taken stay as they are (R120). -/
def applyReset (s : State) : State :=
  { s with
    mode := .idle
    respValid := false
    data := Config.resetData s.freeCount
    cls := Config.resetCls s.freeCount
    idx := Config.resetIdx s.freeCount
    resp := Response.ofWord (Config.resetResp s.freeCount)
    freeCount := s.freeCount + 1 }

/-- What one `SrcRead()` meets (R11, R33). -/
inductive ReadResult where
  /-- No source is attached (I18). -/
  | unattached
  /-- The source withholds its answer: the block holds. -/
  | holds
  /-- `Byte(b)`: b has been consumed. -/
  | byte (b : Byte) (s : State)
  /-- `Exhausted`. -/
  | exhausted (s : State)
  /-- `IoFail`. -/
  | ioFail (s : State)
deriving DecidableEq, Repr

/-- `SrcRead()`: one read transfer (R11, R33). -/
def srcRead (s : State) : ReadResult :=
  match s.source with
  | none => .unattached
  | some src =>
    match src.answers with
    | [] => .holds
    | .byte b :: rest => .byte b { s with source := some { answers := rest, consumed := src.consumed ++ [b] } }
    | .exhausted :: rest => .exhausted { s with source := some { src with answers := rest } }
    | .ioFail :: rest => .ioFail { s with source := some { src with answers := rest } }

/-- What one `SinkWrite(b)` meets (R11, R34). -/
inductive WriteResult where
  /-- No sink is attached (I18). -/
  | unattached
  /-- The sink withholds its answer: the block holds. -/
  | holds
  /-- `Ok`: b is on the sink. -/
  | ok (s : State)
  /-- `IoFail`. -/
  | ioFail (s : State)
deriving DecidableEq, Repr

/-- `SinkWrite(b)`: one write transfer (R11, R34). -/
def sinkWrite (b : Byte) (s : State) : WriteResult :=
  match s.sink with
  | none => .unattached
  | some snk =>
    match snk.answers with
    | [] => .holds
    | .ok :: rest => .ok { s with sink := some { held := snk.held ++ [b], answers := rest } }
    | .ioFail left :: rest => .ioFail { s with sink := some { held := snk.held ++ left, answers := rest } }

/-- What the machine does next. -/
inductive Move where
  /-- An instruction has been fetched: it runs at the given state. -/
  | run (i : Instr) (s : State)
  /-- A step that runs no instruction: a transfer, an error taken, a take, a reset. -/
  | done (s : State)
  /-- No step is possible until the environment moves. -/
  | wait (f : Fault)
  /-- The machine stops. -/
  | stop (f : Fault)
  /-- The environment has no such move. -/
  | refuse (r : Refusal)
deriving DecidableEq, Repr

/-- The host's take: RESP_VALID goes to 0 and RESP keeps its value (R25). A response with STATUS 0b11 is a fault to
whoever observes it (R73, I13). -/
def hostTake (s : State) : Move :=
  match s.hostTakes with
  | 0 => .wait .waitTake
  | n + 1 =>
    if s.resp.status = statusNever then .stop .statusNeverProduced
    else .done { s with respValid := false, hostTakes := n, taken := s.taken ++ [s.resp] }

end Sys2Proof.Machine
end

