-- ==== Sys2Proof/Machine/Classifier.lean ====
section
/-! DEFINITION. The meanings of CLASSIFY and PCLASS (spec/40_classifier.md R83, R84), performed in the acceptance step.
Neither makes a stream transfer, so neither has an error (R102). -/

namespace Sys2Proof.Machine

/-- The response both commands give for the class i: OK, CLASS = i, COUNT = i + 1, VALUE = 0 (R83, R84). -/
def respondClass (i : Nat) (s : State) : State :=
  respond statusOk (BitVec.ofNat 4 i) (BitVec.ofNat 4 (i + 1)) 0#64 s

/-- CLASSIFY x (R83). -/
def execClassify (x : Value) (s : State) : Host.Outcome State Fault Refusal :=
  .next (respondClass (classify x) s)

/-- PCLASS c (R84). -/
def execPclass (c : Byte) (s : State) : Host.Outcome State Fault Refusal :=
  .next (respondClass (prefixClass c) s)

end Sys2Proof.Machine
end

