-- ==== Sys2Proof/Machine/Operands.lean ====
section
/-! DEFINITION. The operand forms: the fields of a command word (spec/30_encoding.md R67, R69), and a value as the bytes
of a stream, big-endian (spec/20_memory.md R36). -/

namespace Sys2Proof.Machine

/-- The command word OP ++ ARG (R67). -/
def commandWord (op : Opcode) (arg : Value) : CommandWord := op ++ arg

/-- OP = CMD[65:64] (R67). -/
def opField (w : CommandWord) : Opcode := w.extractLsb' 64 2

/-- ARG = CMD[63:0] (R67). -/
def argField (w : CommandWord) : Value := w.extractLsb' 0 64

/-- The value operand of CLASSIFY and ENCODE: all of ARG, with no extension, scaling or shift (R69). -/
def valueOperand (w : CommandWord) : Value := argField w

/-- The byte operand of PCLASS: ARG[7:0]; ARG[63:8] is ignored (R69). -/
def byteOperand (w : CommandWord) : Byte := (argField w).extractLsb' 0 8

/-- One more literal byte at the low end of an accumulator: `((v << 8) | b) mod 2^64` (R99). -/
def pushByte (v : Value) (b : Byte) : Value := (v <<< 8) ||| b.setWidth 64

/-- BE(b0, ..., bn), the unsigned integer whose big-endian bytes are given; BE() of no bytes is 0 (R9, R93). -/
def bigEndian (bs : List Byte) : Value := bs.foldl pushByte 0#64

/-- Bits `8*j+7` down to `8*j` of a value, `(x >> (8*j)) & 0xFF` (R85). -/
def byteOf (x : Value) (j : Nat) : Byte := (x >>> (8 * j)).setWidth 8

end Sys2Proof.Machine
end

