-- ==== Sys2Proof/WellFormed.lean ====
section
/-! DEFINITION. Which instructions are well formed: a wire instruction of class i holds only values up to maxForClass(i),
the "Holds x <= ..." of spec/30_encoding.md R54 to R62. Every command is well formed (R68, R69). -/

namespace Sys2Proof

open Sys2Proof.Machine (maxForClass)

/-- The checks on an instruction's operands. -/
def Instr.wellFormed : Instr → Bool
  | .classify _ => true
  | .encode _ => true
  | .decode => true
  | .pclass _ => true
  | .vliC0 x => decide (x.toNat ≤ maxForClass 0)
  | .vliC1 x => decide (x.toNat ≤ maxForClass 1)
  | .vliC2 x => decide (x.toNat ≤ maxForClass 2)
  | .vliC3 x => decide (x.toNat ≤ maxForClass 3)
  | .vliC4 x => decide (x.toNat ≤ maxForClass 4)
  | .vliC5 x => decide (x.toNat ≤ maxForClass 5)
  | .vliC6 x => decide (x.toNat ≤ maxForClass 6)
  | .vliC7 x => decide (x.toNat ≤ maxForClass 7)
  | .vliC8 x => decide (x.toNat ≤ maxForClass 8)

end Sys2Proof
end

