-- ==== Sys2Proof/Decode.lean ====
section
/-! DEFINITION. The decoder and, after it, the encoder of instructions. Commands are 66-bit words (spec/30_encoding.md R67
to R69); wire instructions are 1 to 9 bytes (R50 to R62), read as spec/42_decoder.md R92 and R93 say and laid out as
R54 to R62 say. The decoder follows the shift-and-mask rules, the encoder the bit layouts of each class, so that the
round trip compares two texts of the spec. -/

namespace Sys2Proof

open Sys2Proof.Machine

/-- An encoded instruction: a word of the command port, or bytes of a stream (R31, R48: the two never mix). -/
inductive Encoded where
  /-- A word on the command port (R67). -/
  | command (w : CommandWord)
  /-- Bytes on a stream, the first transferred first (R37). -/
  | wire (bs : List Byte)
deriving DecidableEq, Repr

/-- What the decoder answers. There is no illegal command (R68) and no invalid first byte (R65): the one way to reject is
too few bytes, with the class (0 where there is no byte at all) and the bytes there are (R92). -/
inductive Decoded where
  /-- The instruction, and the bytes after it, left for the next one (R92, R100). -/
  | ok (i : Instr) (rest : List Byte)
  /-- Truncated(class, count) (R92). -/
  | truncated (cls count : Nat)
deriving DecidableEq, Repr

/-- The outcome of R92's decodeBytes: a value with the bytes consumed, or Truncated(class, count). -/
inductive BytesResult where
  /-- Ok(value, count) (R92). -/
  | ok (value : Value) (count : Nat)
  /-- Truncated(class, count) (R92). -/
  | truncated (cls count : Nat)
deriving DecidableEq, Repr

/-! ### The decoder -/

/-- The command of a command word (R68, R69). All four OP values are defined. -/
def decodeCommand (w : CommandWord) : Instr :=
  if opField w = 0b00#2 then .classify (valueOperand w)
  else if opField w = 0b01#2 then .encode (valueOperand w)
  else if opField w = 0b10#2 then .decode
  else .pclass (byteOperand w)

/-- The wire instruction of class i with the value x; there are no classes above 8 (R50). -/
def wireInstr (i : Nat) (x : Value) : Option Instr :=
  match i with
  | 0 => some (.vliC0 x)
  | 1 => some (.vliC1 x)
  | 2 => some (.vliC2 x)
  | 3 => some (.vliC3 x)
  | 4 => some (.vliC4 x)
  | 5 => some (.vliC5 x)
  | 6 => some (.vliC6 x)
  | 7 => some (.vliC7 x)
  | 8 => some (.vliC8 x)
  | _ => none

/-- R93's value of a first byte c of class i and the literal bytes that follow it. -/
def literalValue (i : Nat) (c : Byte) (bs : List Byte) : Value :=
  if i ≤ 7 then (((c &&& lit i).setWidth 64) <<< (8 * i)) ||| bigEndian bs
  else bigEndian bs

/-- decodeBytes(s), the pure function of a finite byte list (R92). -/
def decodeBytes : List Byte → BytesResult
  | [] => .truncated 0 0
  | c :: bs =>
    if bs.length < prefixClass c then .truncated (prefixClass c) (bs.length + 1)
    else .ok (literalValue (prefixClass c) c (bs.take (prefixClass c))) (prefixClass c + 1)

/-- The wire instruction at the front of a byte list. -/
def decodeWire : List Byte → Decoded
  | [] => .truncated 0 0
  | c :: bs =>
    if bs.length < prefixClass c then .truncated (prefixClass c) (bs.length + 1)
    else
      match wireInstr (prefixClass c) (literalValue (prefixClass c) c (bs.take (prefixClass c))) with
      | some i => .ok i (bs.drop (prefixClass c))
      | none => .truncated (prefixClass c) (bs.length + 1)

/-- The decoder: total on every word and every byte list. -/
def decode : Encoded → Decoded
  | .command w => .ok (decodeCommand w) []
  | .wire bs => decodeWire bs

/-! ### The encoder -/

/-- The words of an instruction. A command's ignored bits are written as 0, as R69 says an assembler does; a wire
instruction is laid out field by field as R54 to R62 do. -/
def encode : Instr → Encoded
  | .classify x => .command (commandWord 0b00#2 x)
  | .encode x => .command (commandWord 0b01#2 x)
  | .decode => .command (commandWord 0b10#2 0#64)
  | .pclass c => .command (commandWord 0b11#2 (c.setWidth 64))
  | .vliC0 x => .wire [0b0#1 ++ x.extractLsb' 0 7]
  | .vliC1 x => .wire [0b10#2 ++ x.extractLsb' 8 6, x.extractLsb' 0 8]
  | .vliC2 x => .wire [0b110#3 ++ x.extractLsb' 16 5, x.extractLsb' 8 8, x.extractLsb' 0 8]
  | .vliC3 x =>
    .wire [0b1110#4 ++ x.extractLsb' 24 4, x.extractLsb' 16 8, x.extractLsb' 8 8, x.extractLsb' 0 8]
  | .vliC4 x =>
    .wire [0b11110#5 ++ x.extractLsb' 32 3, x.extractLsb' 24 8, x.extractLsb' 16 8, x.extractLsb' 8 8,
      x.extractLsb' 0 8]
  | .vliC5 x =>
    .wire [0b111110#6 ++ x.extractLsb' 40 2, x.extractLsb' 32 8, x.extractLsb' 24 8, x.extractLsb' 16 8,
      x.extractLsb' 8 8, x.extractLsb' 0 8]
  | .vliC6 x =>
    .wire [0b1111110#7 ++ x.extractLsb' 48 1, x.extractLsb' 40 8, x.extractLsb' 32 8, x.extractLsb' 24 8,
      x.extractLsb' 16 8, x.extractLsb' 8 8, x.extractLsb' 0 8]
  | .vliC7 x =>
    .wire [0xFE#8, x.extractLsb' 48 8, x.extractLsb' 40 8, x.extractLsb' 32 8, x.extractLsb' 24 8,
      x.extractLsb' 16 8, x.extractLsb' 8 8, x.extractLsb' 0 8]
  | .vliC8 x =>
    .wire [0xFF#8, x.extractLsb' 56 8, x.extractLsb' 48 8, x.extractLsb' 40 8, x.extractLsb' 32 8,
      x.extractLsb' 24 8, x.extractLsb' 16 8, x.extractLsb' 8 8, x.extractLsb' 0 8]

/-- The bytes of an encoded wire instruction; a command has none (R48). -/
def Encoded.bytes : Encoded → List Byte
  | .command _ => []
  | .wire bs => bs

/-- The bits of an encoded instruction: 66 for a command (R67), 8 for each byte of a wire instruction (R50). -/
def Encoded.width : Encoded → Nat
  | .command _ => 66
  | .wire bs => 8 * bs.length

/-! ### The opcode table's numbering of bits -/

/-- The 9 bytes of a table word, the first byte in its 8 least significant bits. -/
def tableBytes (w : Nat) : List Byte :=
  (List.range 9).map fun k => BitVec.ofNat 8 (w / 2 ^ (8 * k))

/-- What the table's bits stand for. Command rows have 66 bits, 72 in whole bytes, and so has VLI.C8: at 72 bits a first
byte 0xFF is taken as VLI.C8's (DESIGN CHOICE, log entry 6; no behaviour of the machine rests on it). -/
def tableWord (nbits w : Nat) : Option Encoded :=
  if nbits ≤ 64 then some (.wire (tableBytes w))
  else if 72 < nbits then none
  else if nbits = 72 ∧ w % 256 = 255 then some (.wire (tableBytes w))
  else if w < 2 ^ 66 then some (.command (BitVec.ofNat 66 w))
  else none

/-- The instruction the decoder reads from a word of spec/opcode_table.json. -/
def decodeTableWord (nbits w : Nat) : Option Instr :=
  match tableWord nbits w with
  | none => none
  | some e =>
    match decode e with
    | .ok i _ => some i
    | .truncated _ _ => none

end Sys2Proof
end

