-- ==== Sys2Proof/Machine/Decoder.lean ====
section
/-! DEFINITION. The decoder: the meaning of DECODE (spec/42_decoder.md R98), its read step (R99), and the meanings of the
wire instructions VLI.C0 to VLI.C8. A DECODE fetches a wire instruction from the source one byte a step; the read that
brings its last byte runs it (log entry 5), and running it is what R99 does when `k + 1 = R.CLS + 1`. -/

namespace Sys2Proof.Machine

/-- DECODE, the acceptance step: only IDX and MODE are written (R98). With no source attached the host has no such move
(R32, I18). -/
def execDecode (s : State) : Host.Outcome State Fault Refusal :=
  match s.source with
  | none => .refused .noSourceAttached
  | some _ => .next { s with idx := 0#4, mode := .dec }

/-- The end of a DECODE whose class-i encoding holds x: CLS = i, DATA = x, IDX = i + 1, MODE = IDLE, and the response OK
with CLASS i, COUNT i + 1 and VALUE x (R96, R99). -/
def completeWire (i : Nat) (x : Value) (s : State) : State :=
  respond statusOk (BitVec.ofNat 4 i) (BitVec.ofNat 4 (i + 1)) x
    { s with cls := BitVec.ofNat 4 i, data := x, idx := BitVec.ofNat 4 (i + 1), mode := .idle }

/-- VLI.C0 (R54, R99). -/
def execVliC0 (x : Value) (s : State) : Host.Outcome State Fault Refusal := .next (completeWire 0 x s)

/-- VLI.C1 (R55, R99). -/
def execVliC1 (x : Value) (s : State) : Host.Outcome State Fault Refusal := .next (completeWire 1 x s)

/-- VLI.C2 (R56, R99). -/
def execVliC2 (x : Value) (s : State) : Host.Outcome State Fault Refusal := .next (completeWire 2 x s)

/-- VLI.C3 (R57, R99). -/
def execVliC3 (x : Value) (s : State) : Host.Outcome State Fault Refusal := .next (completeWire 3 x s)

/-- VLI.C4 (R58, R99). -/
def execVliC4 (x : Value) (s : State) : Host.Outcome State Fault Refusal := .next (completeWire 4 x s)

/-- VLI.C5 (R59, R99). -/
def execVliC5 (x : Value) (s : State) : Host.Outcome State Fault Refusal := .next (completeWire 5 x s)

/-- VLI.C6 (R60, R99). -/
def execVliC6 (x : Value) (s : State) : Host.Outcome State Fault Refusal := .next (completeWire 6 x s)

/-- VLI.C7 (R61, R99). -/
def execVliC7 (x : Value) (s : State) : Host.Outcome State Fault Refusal := .next (completeWire 7 x s)

/-- VLI.C8 (R62, R99). -/
def execVliC8 (x : Value) (s : State) : Host.Outcome State Fault Refusal := .next (completeWire 8 x s)

/-- CLS once byte b has been read: the first byte gives the class (R99, R80). -/
def readClass (b : Byte) (s : State) : Nat := if s.idx = 0#4 then prefixClass b else s.cls.toNat

/-- DATA once byte b has been read: the literal bits of the first byte, or one more literal byte (R99). -/
def readData (b : Byte) (s : State) : Value :=
  if s.idx = 0#4 then (b &&& lit (prefixClass b)).setWidth 64 else pushByte s.data b

/-- CLASS of an error in a DECODE: 0 before any byte has been read, else CLS (R99, R105). -/
def errorClass (s : State) : Nibble := if s.idx = 0#4 then 0#4 else s.cls

/-- After a read answered Byte(b): the byte that completes the wire instruction runs it, any other is accumulated
(R99). -/
def afterRead (b : Byte) (s : State) : Move :=
  if s.idx.toNat + 1 = readClass b s + 1 then
    match wireInstr (readClass b s) (readData b s) with
    | some i => .run i s
    | none => .stop .classOutOfRange
  else
    .done { s with cls := BitVec.ofNat 4 (readClass b s), data := readData b s, idx := s.idx + 1#4 }

/-- One read step of a DECODE in progress (R99). -/
def decodeStep (s : State) : Move :=
  match srcRead s with
  | .unattached => .refuse .noSourceAttached
  | .holds => .wait .waitSource
  | .byte b t => afterRead b t
  | .exhausted t => .done (raise .truncated (errorClass t) t)
  | .ioFail t => .done (raise .ioError (errorClass t) t)

end Sys2Proof.Machine
end

