-- ==== Sys2Proof/Machine/Encoder.lean ====
section
/-! DEFINITION. The encoder: encode(x) (spec/41_encoder.md R85), the meaning of ENCODE (R89) and its write step (R90). -/

namespace Sys2Proof.Machine

/-- e0 of encode(x) (R85). -/
def firstByte (x : Value) : Byte :=
  if classify x ≤ 7 then pfx (classify x) ||| byteOf x (classify x) else 0xFF#8

/-- encode(x): e0 and then e1 to ei, most significant byte first (R85). -/
def encodeValue (x : Value) : List Byte :=
  firstByte x :: (List.range (classify x)).map fun j => byteOf x (classify x - (j + 1))

/-- ENCODE x, the acceptance step (R89). With no sink attached the host has no such move (R32, I18). -/
def execEncode (x : Value) (s : State) : Host.Outcome State Fault Refusal :=
  match s.sink with
  | none => .refused .noSinkAttached
  | some _ => .next { s with data := x, cls := BitVec.ofNat 4 (classify x), idx := 0#4, mode := .enc }

/-- After a write answered Ok: IDX counts it, and the last byte ends the command (R90). -/
def afterWrite (s : State) : State :=
  if s.idx.toNat + 1 = s.cls.toNat + 1 then
    respond statusOk s.cls (s.cls + 1#4) 0#64 { s with idx := s.idx + 1#4, mode := .idle }
  else { s with idx := s.idx + 1#4 }

/-- One write step of an ENCODE in progress (R90). -/
def encodeStep (s : State) : Move :=
  match (encodeValue s.data)[s.idx.toNat]? with
  | none => .stop .indexOutOfRange
  | some b =>
    match sinkWrite b s with
    | .unattached => .refuse .noSinkAttached
    | .holds => .wait .waitSink
    | .ok t => .done (afterWrite t)
    | .ioFail t => .done (raise .ioError t.cls t)

end Sys2Proof.Machine
end

