-- ==== Sys2Proof/Machine/Dispatch.lean ====
section
/-! DEFINITION. One arm for each row of spec/opcode_table.json. -/

namespace Sys2Proof.Machine

def exec (i : Instr) (s : State) : Host.Outcome State Fault Refusal :=
  match i with
  | .classify x => Sys2Proof.Machine.execClassify x s
  | .encode x => Sys2Proof.Machine.execEncode x s
  | .decode => Sys2Proof.Machine.execDecode s
  | .pclass c => Sys2Proof.Machine.execPclass c s
  | .vliC0 x => Sys2Proof.Machine.execVliC0 x s
  | .vliC1 x => Sys2Proof.Machine.execVliC1 x s
  | .vliC2 x => Sys2Proof.Machine.execVliC2 x s
  | .vliC3 x => Sys2Proof.Machine.execVliC3 x s
  | .vliC4 x => Sys2Proof.Machine.execVliC4 x s
  | .vliC5 x => Sys2Proof.Machine.execVliC5 x s
  | .vliC6 x => Sys2Proof.Machine.execVliC6 x s
  | .vliC7 x => Sys2Proof.Machine.execVliC7 x s
  | .vliC8 x => Sys2Proof.Machine.execVliC8 x s

end Sys2Proof.Machine
end

