-- ==== Sys2Proof/Machine/Fetch.lean ====
section
/-! DEFINITION. What the machine does next: reset first (spec/60_exceptions.md R107), then the transfer of the command in
progress, then the host's take, then the acceptance of the command presented (spec/30_encoding.md R70). Also the
placing of an instruction where the next step fetches it (log entry 7). -/

namespace Sys2Proof.Machine

/-- Acceptance: the command word presented is fetched (R70). Called only where CMD_READY = 1. -/
def acceptCommand (s : State) : Move :=
  match s.cmdPort with
  | [] => .wait .waitCommand
  | w :: rest => .run (decodeCommand w) { s with cmdPort := rest }

/-- The next move with reset not asserted. -/
def blockMove (s : State) : Move :=
  match s.mode with
  | .enc => encodeStep s
  | .dec => decodeStep s
  | .idle => if s.respValid then hostTake s else acceptCommand s

/-- A hold, while the reset line still has levels to come: the block takes no step and the line moves on (R127; log
entry 19). -/
def Move.orTime (m : Move) (s : State) : Move :=
  match m with
  | .wait _ => .done s
  | m => m

/-- The next move. The reset line is sampled before every step, and an asserted reset takes precedence over everything
(R107, R120). -/
def nextMove (s : State) : Move :=
  match s.resetLine with
  | [] => blockMove s
  | true :: line => .done (applyReset { s with resetLine := line })
  | false :: line => (blockMove { s with resetLine := line }).orTime { s with resetLine := line }

/-- The streams a command needs, attached with nothing on them where none is attached (R32, R121). -/
def attachFor (i : Instr) (s : State) : State :=
  match i with
  | .encode _ => { s with sink := s.sink.or (some { held := [], answers := [] }) }
  | .decode => { s with source := s.source.or (some { answers := [], consumed := [] }) }
  | .classify _ => s
  | .pclass _ => s
  | .vliC0 _ => s
  | .vliC1 _ => s
  | .vliC2 _ => s
  | .vliC3 _ => s
  | .vliC4 _ => s
  | .vliC5 _ => s
  | .vliC6 _ => s
  | .vliC7 _ => s
  | .vliC8 _ => s

/-- A command word presented to a ready block, with reset low for the next step (log entry 7). -/
def placeCommand (w : CommandWord) (s : State) : State :=
  attachFor (decodeCommand w)
    { s with mode := .idle, respValid := false, resetLine := false :: s.resetLine, cmdPort := w :: s.cmdPort }

/-- A source whose next answer is the byte b, once the bytes `before` have been consumed from it. -/
def sourceAt (before : List Byte) (b : Byte) (src : Option Source) : Source :=
  match src with
  | none => { answers := [.byte b], consumed := before }
  | some q => { answers := .byte b :: q.answers, consumed := q.consumed ++ before }

/-- A wire instruction whose last byte is the source's next answer and whose earlier bytes a DECODE has already read: CLS,
IDX and DATA are what the read steps of R99 leave before the last one (log entry 7). -/
def placeWire (bs : List Byte) (s : State) : State :=
  match bs with
  | [] => s
  | c :: rest =>
    let t := { s with mode := .dec, resetLine := false :: s.resetLine, idx := BitVec.ofNat 4 (prefixClass c) }
    match (rest.take (prefixClass c)).reverse with
    | [] => { t with source := some (sourceAt [] c s.source) }
    | last :: before =>
      { t with
        cls := BitVec.ofNat 4 (prefixClass c)
        data := before.reverse.foldl pushByte ((c &&& lit (prefixClass c)).setWidth 64)
        source := some (sourceAt (c :: before.reverse) last s.source) }

/-- The instruction of a table word, placed where the next step fetches and runs it. -/
def placeTableWord (nbits w : Nat) (s : State) : State :=
  match tableWord nbits w with
  | none => s
  | some (.command cw) => placeCommand cw s
  | some (.wire bs) => placeWire bs s

end Sys2Proof.Machine
end

