-- ==== Sys2Proof/Machine/Step.lean ====
section
/-! DEFINITION. One step of the machine, and the placing of an instruction where the next step fetches it. -/

namespace Sys2Proof.Machine

/-- One step: a fetched instruction runs; a transfer, a take or a reset gives its state; a hold is a stuck state under its
own name (log entry 2). -/
def step (s : State) : Host.Outcome State Fault Refusal :=
  match nextMove s with
  | .run i t => exec i t
  | .done t => .next t
  | .wait f => .fault f
  | .stop f => .fault f
  | .refuse r => .refused r

/-- `s` with the instruction of the table word w where the next step fetches and runs it (log entry 7). -/
def State.withFetchWord (s : State) (nbits w : Nat) : State := placeTableWord nbits w s

end Sys2Proof.Machine
end

