-- ==== Sys2Proof/Machine/Asm.lean ====
section
/-! DEFINITION. The assembler syntax of spec/30_encoding.md R76: a line's text, its range checks and its command word. It
is notation: the machine's step does not use it. -/

namespace Sys2Proof.Machine

/-- A line of a program (R76). -/
inductive AsmLine where
  /-- `CLASSIFY <value>`. -/
  | classify (value : Nat)
  /-- `ENCODE <value>`. -/
  | encode (value : Nat)
  /-- `DECODE`. -/
  | decode
  /-- `PCLASS <byte>`. -/
  | pclass (byte : Nat)
deriving DecidableEq, Repr

/-- The command word of a line; an operand out of range is refused (R76). -/
def assemble : AsmLine → Option CommandWord
  | .classify v => if v < 2 ^ 64 then some (commandWord 0b00#2 (BitVec.ofNat 64 v)) else none
  | .encode v => if v < 2 ^ 64 then some (commandWord 0b01#2 (BitVec.ofNat 64 v)) else none
  | .decode => some (commandWord 0b10#2 0#64)
  | .pclass c => if c < 2 ^ 8 then some (commandWord 0b11#2 (BitVec.ofNat 64 c)) else none

/-- The 17 hexadecimal digits an assembled word is written with, the top digit being OP (R76). -/
def hexDigits (w : CommandWord) : List Nat := (List.range 17).map fun k => w.toNat / 16 ^ (16 - k) % 16

/-- The digit a character stands for, below the base. -/
def digit (base : Nat) (c : Char) : Option Nat :=
  let n := c.toNat
  let d :=
    if 48 ≤ n ∧ n ≤ 57 then some (n - 48)
    else if 65 ≤ n ∧ n ≤ 70 then some (n - 55)
    else if 97 ≤ n ∧ n ≤ 102 then some (n - 87)
    else none
  d.filter fun k => decide (k < base)

/-- A nonempty row of digits. -/
def digits (base : Nat) (cs : List Char) : Option Nat :=
  if cs.isEmpty then none
  else cs.foldl (fun acc c => acc.bind fun n => (digit base c).map fun d => n * base + d) (some 0)

/-- An unsigned literal, decimal or `0x` hexadecimal (R76; the case of hexadecimal digits is free: log entry 20). -/
def literal : List Char → Option Nat
  | '0' :: 'x' :: cs => digits 16 cs
  | cs => digits 10 cs

/-- The text before a comment `;`, cut at blanks. -/
def tokens : List Char → List (List Char)
  | [] => []
  | ';' :: _ => []
  | c :: cs =>
    if c = ' ' then [] :: tokens cs
    else
      match tokens cs with
      | [] => [[c]]
      | t :: ts => (c :: t) :: ts

/-- A line's tokens that are not empty. -/
def words (cs : List Char) : List (List Char) := (tokens cs).filter fun t => !t.isEmpty

/-- The line a text stands for; none where it is not of R76's syntax. -/
def parseLine (cs : List Char) : Option AsmLine :=
  match words cs with
  | [m, a] =>
    if m = ['C', 'L', 'A', 'S', 'S', 'I', 'F', 'Y'] then (literal a).map .classify
    else if m = ['E', 'N', 'C', 'O', 'D', 'E'] then (literal a).map .encode
    else if m = ['P', 'C', 'L', 'A', 'S', 'S'] then (literal a).map .pclass
    else none
  | [m] => if m = ['D', 'E', 'C', 'O', 'D', 'E'] then some .decode else none
  | _ => none

/-- The command word of a line of text (R76). -/
def assembleText (cs : List Char) : Option CommandWord := (parseLine cs).bind assemble

end Sys2Proof.Machine
end

