-- ==== Sys2Proof/Machine/Run.lean ====
section
/-! DEFINITION. Runs: the end of a run and what can be observed of it (spec/70_reset_and_hazards.md R122), and a platform
of several instances (spec/10_state.md R30, spec/60_exceptions.md R114). -/

namespace Sys2Proof.Machine

/-- `n` steps of one instance, stopping at the first that gives no next state. -/
def run : Nat → State → Host.Outcome State Fault Refusal
  | 0, s => .next s
  | n + 1, s =>
    match step s with
    | .next t => run n t
    | .fault f => .fault f
    | .refused r => .refused r

/-- A run of the host's program has ended: every command has been presented and accepted, MODE = IDLE, and no response
stands untaken (R122). R122 says that the host has taken the last response and does not say what holds where a reset has
discarded it (R120); such a run counts as ended here (DESIGN CHOICE, log entry 23). -/
def runEnded (s : State) : Bool := s.cmdPort.isEmpty && decide (s.mode = .idle) && !s.respValid

/-- A run's observable result (R122). -/
structure Observation where
  /-- The responses the host has taken, oldest first. -/
  responses : List Response
  /-- The bytes on the sink, where one is attached. -/
  written : Option (List Byte)
  /-- The bytes consumed from the source, where one is attached. -/
  consumed : Option (List Byte)
deriving DecidableEq, Repr

/-- What can be observed of a run that has come to `s` (R122). -/
def observe (s : State) : Observation where
  responses := s.taken
  written := s.sink.map Sink.held
  consumed := s.source.map Source.consumed

/-- What the host sees at its ports: CMD_READY, RESP_VALID, and RESP while RESP_VALID = 1 (R25, R26, R28, I10). -/
def hostView (s : State) : Bool × Bool × Option Response :=
  (cmdReady s, s.respValid, if s.respValid then some s.resp else none)

/-- The ports of an instance that a platform places (R42). -/
inductive Port where
  /-- The command port (R67). -/
  | command
  /-- The response port (R71). -/
  | response
  /-- The byte source (R31). -/
  | source
  /-- The byte sink (R31). -/
  | sink
deriving DecidableEq, Repr

/-- One port of one instance, placed at an address of the platform. -/
structure Placement where
  inst : Nat
  port : Port
  address : Nat
deriving DecidableEq, Repr

/-- PLATFORM_MAP: where a platform places the ports of its instances (R8, R42, I17; its shape is log entry 17). -/
abbrev PlatformMap := List Placement

/-- The address of a port of instance `k`, where the map places it. -/
def PlatformMap.addressOf (m : PlatformMap) (k : Nat) (port : Port) : Option Nat :=
  (m.find? fun q => decide (q.inst = k ∧ q.port = port)).map Placement.address

/-- A platform (R30, R114): its map and the states of its instances, each with its own ports and streams. No stream is
shared, so no move breaks per-stream exclusivity (R45, R115; log entry 16). -/
structure Platform where
  /-- PLATFORM_MAP, an argument of the model; no rule depends on it (R8, I17). -/
  map : PlatformMap
  /-- The N_INSTANCES instances (R8, R114). -/
  instances : List State
deriving DecidableEq, Repr

/-- A platform with the map `m` and `n` instances, all just out of reset (R114, R118). The spec asks for n at least 1
(R8). -/
def Platform.reset (m : PlatformMap) (n : Nat) : Platform := { map := m, instances := List.replicate n State.reset }

/-- One step of instance `k`; the others and the map stay as they are (R30). -/
def Platform.step (k : Nat) (p : Platform) : Host.Outcome Platform Fault Refusal :=
  match p.instances[k]? with
  | none => .refused .noSuchInstance
  | some s =>
    match Machine.step s with
    | .next t => .next { p with instances := p.instances.set k t }
    | .fault f => .fault f
    | .refused r => .refused r

/-- The steps of a schedule, which says which instance moves next (R45: the spec fixes no order between instances). -/
def Platform.run : List Nat → Platform → Host.Outcome Platform Fault Refusal
  | [], p => .next p
  | k :: ks, p =>
    match Platform.step k p with
    | .next q => Platform.run ks q
    | .fault f => .fault f
    | .refused r => .refused r

end Sys2Proof.Machine
end

