-- ==== Sys2Proof/Safety.lean ====
section
/-! DEFINITION. What claims about the machine are said in terms of: legal responses, the invariant of the transaction
state, and when two states cannot be told apart from outside the block. -/

namespace Sys2Proof.Machine

/-- A response the block can give: STATUS is not 0b11 (R72), CLASS is 0 to 8 and COUNT 0 to 9 (R71); with status OK the
count is the class's length (R83, R84, R90, R99) and the value one of the class (R94); with an error the value is 0 and
the count is at most the class (R105). -/
abbrev LegalResponse (r : Response) : Prop :=
  r.status ≠ statusNever ∧ r.cls.toNat ≤ 8 ∧ r.count.toNat ≤ 9 ∧
    (r.status = statusOk → r.count.toNat = r.cls.toNat + 1 ∧ r.value.toNat ≤ maxForClass r.cls.toNat) ∧
    (r.status ≠ statusOk → r.count.toNat ≤ r.cls.toNat ∧ r.value = 0#64)

/-- An ENCODE in progress: CLS = classify(DATA) (R23), IDX at most CLS (R24), a sink attached (R32). -/
abbrev EncodeInProgress (s : State) : Prop :=
  s.cls.toNat = classify s.data ∧ s.idx.toNat ≤ s.cls.toNat ∧ s.sink.isSome = true

/-- The number of literal bits a class-i DECODE has read after its first k >= 1 bytes (R52, R53). -/
def literalBits (i k : Nat) : Nat := (7 - i) + 8 * (k - 1)

/-- A DECODE in progress: a source attached (R32), and once a byte has been read a class in 0 to 8 (R23), IDX at most CLS
(R24), and DATA no wider than the literal bits read so far, so that it never loses a bit (R22, R94). -/
abbrev DecodeInProgress (s : State) : Prop :=
  s.source.isSome = true ∧
    (s.idx ≠ 0#4 →
      s.idx.toNat ≤ s.cls.toNat ∧ s.cls.toNat ≤ 8 ∧ s.data.toNat < 2 ^ literalBits s.cls.toNat s.idx.toNat)

/-- The invariant of the transaction state (R20 to R26): a response stands only while the block is idle and is legal, and
each command in progress is as it should be; so are the responses already taken. -/
abbrev StateInv (s : State) : Prop :=
  (s.respValid = true → s.mode = .idle ∧ LegalResponse s.resp) ∧
    (s.mode = .enc → EncodeInProgress s) ∧
    (s.mode = .dec → DecodeInProgress s) ∧
    ∀ r ∈ s.taken, LegalResponse r

/-- Two states that agree on the environment and on all the block may still read: RESP while RESP_VALID = 1, the working
fields of an ENCODE, and those of a DECODE once it has written them (R15, R29). -/
abbrev SameOutside (s t : State) : Prop :=
  s.mode = t.mode ∧ s.respValid = t.respValid ∧ s.resetLine = t.resetLine ∧ s.cmdPort = t.cmdPort ∧
    s.hostTakes = t.hostTakes ∧ s.taken = t.taken ∧ s.source = t.source ∧ s.sink = t.sink ∧
    (s.respValid = true → s.resp = t.resp) ∧
    (s.mode = .enc → s.data = t.data ∧ s.cls = t.cls ∧ s.idx = t.idx) ∧
    (s.mode = .dec → s.idx = t.idx ∧ (s.idx ≠ 0#4 → s.data = t.data ∧ s.cls = t.cls))

/-- The reset line is low for the next n steps. -/
abbrev ResetLow (n : Nat) (s : State) : Prop := ∀ b ∈ s.resetLine.take n, b = false

/-- `s` once n levels of the reset line have gone by. -/
def afterLevels (n : Nat) (s : State) : State := { s with resetLine := s.resetLine.drop n }

end Sys2Proof.Machine
end

