-- ==== Sys2Proof/Certificates/Slice0/Obligations.lean ====
section
/-! DEFINITION. The statements for the provers. Each names in its docstring the rule of spec/ it formalises, or the sentence
of the spec or the log entry it rests on. ResetLow n says that reset is not asserted during the next n steps. -/

open Sys2Proof Sys2Proof.Machine

namespace Sys2Proof.Claims

/-- The class-boundary table: class, minimum, maximum, bytes, literal bits (spec/30_encoding.md R50). -/
def classTable : List (Nat × Nat × Nat × Nat × Nat) :=
  [(0, 0x0, 0x7F, 1, 7), (1, 0x80, 0x3FFF, 2, 14), (2, 0x4000, 0x1FFFFF, 3, 21),
    (3, 0x200000, 0xFFFFFFF, 4, 28), (4, 0x10000000, 0x7FFFFFFFF, 5, 35),
    (5, 0x800000000, 0x3FFFFFFFFFF, 6, 42), (6, 0x40000000000, 0x1FFFFFFFFFFFF, 7, 49),
    (7, 0x2000000000000, 0xFFFFFFFFFFFFFF, 8, 56), (8, 0x100000000000000, 0xFFFFFFFFFFFFFFFF, 9, 64)]

/-- The number of significant bits of a value (spec/40_classifier.md R78). -/
def significantBits (x : Value) : Nat := if x = 0#64 then 0 else Nat.log2 x.toNat + 1

/-- The number of leading one-bits of a byte, from bit 7 down (spec/40_classifier.md R81). -/
def leadingOnes (c : Byte) : Nat := ((List.range 8).takeWhile fun j => c.getLsbD (7 - j)).length

/-- BE of a byte list as a number (spec/00_scope.md R9). -/
def bigEndianNat (bs : List Byte) : Nat := bs.foldl (fun n b => n * 256 + b.toNat) 0

/-- The instruction an assembler line stands for (spec/30_encoding.md R76). -/
def lineInstr : AsmLine → Instr
  | .classify v => .classify (BitVec.ofNat 64 v)
  | .encode v => .encode (BitVec.ofNat 64 v)
  | .decode => .decode
  | .pclass c => .pclass (BitVec.ofNat 8 c)

/-- An assembler line's operand is in range (spec/30_encoding.md R76). -/
def lineInRange : AsmLine → Bool
  | .classify v => decide (v < 2 ^ 64)
  | .encode v => decide (v < 2 ^ 64)
  | .decode => true
  | .pclass c => decide (c < 256)

end Sys2Proof.Claims

open Sys2Proof.Claims

/-! ### The classifier -/

/-- R77: classify(x) is the smallest class whose maximum x does not exceed, in 0..8, and 8 exactly above 2^56 - 1. -/
def Obligations.ClassifyIsTheSmallestFittingClass : Prop :=
  ∀ x : Value,
    classify x ≤ 8 ∧ x.toNat ≤ maxForClass (classify x) ∧
      (∀ i, i ≤ 8 → x.toNat ≤ maxForClass i → classify x ≤ i) ∧
      (classify x = 8 ↔ 2 ^ 56 - 1 < x.toNat)

/-- The table of R50 (its literal-bits column is the spec's own derivation): the values of class i are those between its
bounds, their encoding has the table's length, and the maximum has exactly the literal bits. -/
def Obligations.ClassBoundaryTableGivesClassAndLength : Prop :=
  ∀ i lo hi bytes bits, (i, lo, hi, bytes, bits) ∈ classTable →
    minForClass i = lo ∧ maxForClass i = hi ∧ hi + 1 = 2 ^ bits ∧
      ∀ x : Value,
        (classify x = i ↔ lo ≤ x.toNat ∧ x.toNat ≤ hi) ∧ (classify x = i → (encodeValue x).length = bytes)

/-- R78, "Equivalent form [derived: from rule R77]": the class by significant bits, and as the index of the highest nonzero
7-bit group, capped at 8. -/
def Obligations.ClassifyBySignificantBitsAndGroups : Prop :=
  ∀ x : Value,
    classify x =
        (if significantBits x ≤ 7 then 0 else min 8 ((significantBits x + 6) / 7 - 1)) ∧
      ∀ g, x.toNat / 2 ^ (7 * g) % 128 ≠ 0 → (∀ h, g < h → x.toNat / 2 ^ (7 * h) % 128 = 0) →
        classify x = min 8 g

/-- R79, marked derived there: class and encoded length are monotone. -/
def Obligations.ClassAndLengthAreMonotone : Prop :=
  ∀ x y : Value, x.toNat < y.toNat →
    classify x ≤ classify y ∧ (encodeValue x).length ≤ (encodeValue y).length

/-- R80: prefixClass tests the byte against the thresholds in increasing order; only 0xFF reaches class 8. -/
def Obligations.PrefixClassTestsTheThresholds : Prop :=
  (List.range 8).map thr = [0x7F#8, 0xBF#8, 0xDF#8, 0xEF#8, 0xF7#8, 0xFB#8, 0xFD#8, 0xFE#8] ∧
    ∀ c : Byte,
      prefixClass c ≤ 8 ∧ (∀ i < prefixClass c, (thr i).toNat < c.toNat) ∧
        (prefixClass c ≤ 7 → c.toNat ≤ (thr (prefixClass c)).toNat) ∧ (prefixClass c = 8 ↔ c = 0xFF#8)

/-- R81, "Equivalent forms [derived: from rule R80 and 30_encoding.md rule R63]": the number of leading one-bits, and the
unique i with c & HDR(i) = PFX(i). -/
def Obligations.PrefixClassCountsLeadingOnes : Prop :=
  ∀ c : Byte, prefixClass c = leadingOnes c ∧ ∀ i < 9, (c &&& hdr i = pfx i ↔ prefixClass c = i)

/-- The table of named constants in R63, whose values the spec derives from its definitions. -/
def Obligations.NamedConstantsOfEveryClass : Prop :=
  (List.range 9).map (fun i => (pfx i, thr i, lit i, hdr i)) =
    [(0x00#8, 0x7F#8, 0x7F#8, 0x80#8), (0x80#8, 0xBF#8, 0x3F#8, 0xC0#8), (0xC0#8, 0xDF#8, 0x1F#8, 0xE0#8),
      (0xE0#8, 0xEF#8, 0x0F#8, 0xF0#8), (0xF0#8, 0xF7#8, 0x07#8, 0xF8#8), (0xF8#8, 0xFB#8, 0x03#8, 0xFC#8),
      (0xFC#8, 0xFD#8, 0x01#8, 0xFE#8), (0xFE#8, 0xFE#8, 0x00#8, 0xFF#8), (0xFF#8, 0xFF#8, 0x00#8, 0xFF#8)]

/-- R82, marked derived there: the first byte of encode(x) has the class of x, and the first byte of any class-i encoding,
canonical or not, has class i. -/
def Obligations.TheTwoClassifiersAgree : Prop :=
  (∀ x : Value, (encodeValue x).head?.map prefixClass = some (classify x)) ∧
    ∀ (i : Nat) (x : Value) (j : Instr), wireInstr i x = some j → j.wellFormed = true →
      (encode j).bytes.head?.map prefixClass = some i

/-! ### Encodings -/

/-- R52: for a class i in 0..7 the bits of e0, ..., ei, each byte from bit 7 to bit 0, are i one-bits, one zero-bit and x in
7*(i+1) bits, most significant first. Bit p of the stream is bit 7 - p%8 of byte p/8. -/
def Obligations.BitStreamOfClassesZeroToSeven : Prop :=
  ∀ (i : Nat) (x : Value) (j : Instr), i ≤ 7 → wireInstr i x = some j → j.wellFormed = true →
    (encode j).bytes.length = i + 1 ∧
      ∀ p, p < 8 * (i + 1) →
        (encode j).bytes[p / 8]?.map (fun b => b.getLsbD (7 - p % 8)) =
          some (if p < i then true else if p = i then false else x.getLsbD (8 * (i + 1) - 1 - p))

/-- R53: class 8 is 0xFF and then the 8 bytes of x, ek = x[71-8k:64-8k]. -/
def Obligations.ByteLayoutOfClassEight : Prop :=
  ∀ x : Value,
    (encode (.vliC8 x)).bytes = 0xFF#8 :: (List.range 8).map (fun k => x.extractLsb' (64 - 8 * (k + 1)) 8)

/-- R54 to R62: the bytes of each class, written out field by field, are what the encoder gives and what the decoder reads
back as x, whatever bytes follow, for every x the class holds. -/
def Obligations.ClassLayoutsEncodeAndDecode : Prop :=
  ∀ (x : Value) (rest : List Byte),
    (x.toNat ≤ 0x7F → encode (.vliC0 x) = .wire [0b0#1 ++ x.extractLsb' 0 7] ∧
      decode (.wire ([0b0#1 ++ x.extractLsb' 0 7] ++ rest)) = .ok (.vliC0 x) rest) ∧
    (x.toNat ≤ 0x3FFF → encode (.vliC1 x) = .wire [0b10#2 ++ x.extractLsb' 8 6, x.extractLsb' 0 8] ∧
      decode (.wire ([0b10#2 ++ x.extractLsb' 8 6, x.extractLsb' 0 8] ++ rest)) = .ok (.vliC1 x) rest) ∧
    (x.toNat ≤ 0x1FFFFF →
      encode (.vliC2 x) = .wire [0b110#3 ++ x.extractLsb' 16 5, x.extractLsb' 8 8, x.extractLsb' 0 8] ∧
      decode (.wire ([0b110#3 ++ x.extractLsb' 16 5, x.extractLsb' 8 8, x.extractLsb' 0 8] ++ rest)) =
        .ok (.vliC2 x) rest) ∧
    (x.toNat ≤ 0xFFFFFFF →
      encode (.vliC3 x) =
        .wire [0b1110#4 ++ x.extractLsb' 24 4, x.extractLsb' 16 8, x.extractLsb' 8 8, x.extractLsb' 0 8] ∧
      decode (.wire ([0b1110#4 ++ x.extractLsb' 24 4, x.extractLsb' 16 8, x.extractLsb' 8 8, x.extractLsb' 0 8] ++ rest)) =
        .ok (.vliC3 x) rest) ∧
    (x.toNat ≤ 0x7FFFFFFFF →
      encode (.vliC4 x) =
        .wire [0b11110#5 ++ x.extractLsb' 32 3, x.extractLsb' 24 8, x.extractLsb' 16 8, x.extractLsb' 8 8,
          x.extractLsb' 0 8] ∧
      decode (.wire ([0b11110#5 ++ x.extractLsb' 32 3, x.extractLsb' 24 8, x.extractLsb' 16 8, x.extractLsb' 8 8,
        x.extractLsb' 0 8] ++ rest)) = .ok (.vliC4 x) rest) ∧
    (x.toNat ≤ 0x3FFFFFFFFFF →
      encode (.vliC5 x) =
        .wire [0b111110#6 ++ x.extractLsb' 40 2, x.extractLsb' 32 8, x.extractLsb' 24 8, x.extractLsb' 16 8,
          x.extractLsb' 8 8, x.extractLsb' 0 8] ∧
      decode (.wire ([0b111110#6 ++ x.extractLsb' 40 2, x.extractLsb' 32 8, x.extractLsb' 24 8, x.extractLsb' 16 8,
        x.extractLsb' 8 8, x.extractLsb' 0 8] ++ rest)) = .ok (.vliC5 x) rest) ∧
    (x.toNat ≤ 0x1FFFFFFFFFFFF →
      encode (.vliC6 x) =
        .wire [0b1111110#7 ++ x.extractLsb' 48 1, x.extractLsb' 40 8, x.extractLsb' 32 8, x.extractLsb' 24 8,
          x.extractLsb' 16 8, x.extractLsb' 8 8, x.extractLsb' 0 8] ∧
      decode (.wire ([0b1111110#7 ++ x.extractLsb' 48 1, x.extractLsb' 40 8, x.extractLsb' 32 8, x.extractLsb' 24 8,
        x.extractLsb' 16 8, x.extractLsb' 8 8, x.extractLsb' 0 8] ++ rest)) = .ok (.vliC6 x) rest) ∧
    (x.toNat ≤ 0xFFFFFFFFFFFFFF →
      encode (.vliC7 x) =
        .wire [0xFE#8, x.extractLsb' 48 8, x.extractLsb' 40 8, x.extractLsb' 32 8, x.extractLsb' 24 8,
          x.extractLsb' 16 8, x.extractLsb' 8 8, x.extractLsb' 0 8] ∧
      decode (.wire ([0xFE#8, x.extractLsb' 48 8, x.extractLsb' 40 8, x.extractLsb' 32 8, x.extractLsb' 24 8,
        x.extractLsb' 16 8, x.extractLsb' 8 8, x.extractLsb' 0 8] ++ rest)) = .ok (.vliC7 x) rest) ∧
    (encode (.vliC8 x) =
        .wire [0xFF#8, x.extractLsb' 56 8, x.extractLsb' 48 8, x.extractLsb' 40 8, x.extractLsb' 32 8,
          x.extractLsb' 24 8, x.extractLsb' 16 8, x.extractLsb' 8 8, x.extractLsb' 0 8] ∧
      decode (.wire ([0xFF#8, x.extractLsb' 56 8, x.extractLsb' 48 8, x.extractLsb' 40 8, x.extractLsb' 32 8,
        x.extractLsb' 24 8, x.extractLsb' 16 8, x.extractLsb' 8 8, x.extractLsb' 0 8] ++ rest)) = .ok (.vliC8 x) rest)

/-- R64, "Closed form [derived: from rules R52, R53 and R63]": the class-i encoding of x is the (i+1)-byte big-endian
representation of PFX(i)*2^(8*i) + x. -/
def Obligations.ClosedFormOfEveryEncoding : Prop :=
  ∀ (i : Nat) (x : Value) (j : Instr), wireInstr i x = some j → j.wellFormed = true →
    (encode j).bytes =
      (List.range (i + 1)).map fun k =>
        BitVec.ofNat 8 (((pfx i).toNat * 2 ^ (8 * i) + x.toNat) / 2 ^ (8 * (i - k)))

/-- encode(x) of R85, computed by shifts and masks, is the layout that R54 to R62 give the class of x. -/
def Obligations.EncoderEmitsTheLayoutOfItsClass : Prop :=
  ∀ (x : Value) (j : Instr), wireInstr (classify x) x = some j →
    j.wellFormed = true ∧ encode j = .wire (encodeValue x)

/-- R87 (its last sentence is marked derived): the first byte of encode(x) has one-bits 7 down to 8 - i and a zero
terminator at 7 - i for i <= 7, and is 0xFF for i = 8. -/
def Obligations.FirstByteHasOnesThenTerminator : Prop :=
  ∀ x : Value,
    ∃ e0 rest, encodeValue x = e0 :: rest ∧
      (∀ p, p < classify x → e0.getLsbD (7 - p) = true) ∧
      (classify x ≤ 7 → e0.getLsbD (7 - classify x) = false) ∧
      (classify x = 8 → e0 = 0xFF#8)

/-- The glossary's canonical encoding (R13, R86): encode(x) has classify(x) + 1 bytes, no encoding of x is shorter, and it
is the only one of that length. -/
def Obligations.EncoderIsCanonicalAndMinimal : Prop :=
  ∀ x : Value,
    (encodeValue x).length = classify x + 1 ∧
      ∀ bs : List Byte, decodeBytes bs = .ok x bs.length →
        classify x + 1 ≤ bs.length ∧ (bs.length = classify x + 1 → bs = encodeValue x)

/-- R97: decodeBytes(encode(x)) = Ok(x, classify(x) + 1), here with any bytes following (R92). The second clause is the
spec's derived remark that the converse holds only for canonical bytes, with its example [0x80, 0x05]. -/
def Obligations.DecodingInvertsEncoding : Prop :=
  (∀ (x : Value) (rest : List Byte), decodeBytes (encodeValue x ++ rest) = .ok x (classify x + 1)) ∧
    decodeBytes [0x80#8, 0x05#8] = .ok 5#64 2 ∧ encodeValue 5#64 ≠ [0x80#8, 0x05#8]

/-- Encodings are self-delimiting and encode is injective (R88, marked derived; R100): a stream of encodings splits in one
way. -/
def Obligations.EncodingsAreSelfDelimiting : Prop :=
  ∀ (x y : Value) (r t : List Byte), encodeValue x ++ r = encodeValue y ++ t → x = y ∧ r = t

/-- R93 to R96 (the closed form and the range are marked derived): every byte and as many bytes as its class asks for
decode, whatever follows, to BE(s0..si) - PFX(i)*2^(8*i), a value of at most class i, with i + 1 bytes consumed. -/
def Obligations.EverySequenceOfClassLengthDecodes : Prop :=
  ∀ (c : Byte) (bs rest : List Byte), bs.length = prefixClass c →
    ∃ v : Value, decodeBytes (c :: bs ++ rest) = .ok v (prefixClass c + 1) ∧
      v.toNat + (pfx (prefixClass c)).toNat * 2 ^ (8 * prefixClass c) = bigEndianNat (c :: bs) ∧
      v.toNat ≤ maxForClass (prefixClass c) ∧ classify v ≤ prefixClass c

/-- R66, marked derived there: a value of class c has exactly one encoding in each class from c to 8 and none in a smaller
one. -/
def Obligations.OneEncodingInEachClassFromItsOwn : Prop :=
  ∀ (x : Value) (i : Nat), i ≤ 8 →
    (classify x ≤ i → ∃ bs, decodeBytes bs = .ok x (i + 1) ∧ bs.length = i + 1 ∧
      ∀ cs, decodeBytes cs = .ok x (i + 1) → cs.length = i + 1 → cs = bs) ∧
    (i < classify x → ∀ cs, decodeBytes cs ≠ .ok x (i + 1))

/-- Decoding the encoding of a well-formed instruction gives it back, for every constructor and every operand; a wire
instruction also with any bytes after it. -/
def Obligations.DecodeOfEncodeIsTheInstruction : Prop :=
  ∀ i : Instr, i.wellFormed = true →
    decode (encode i) = .ok i [] ∧
      ∀ bs rest, encode i = .wire bs → decode (.wire (bs ++ rest)) = .ok i rest

/-- What the wire decoder answers stands for the bytes it read: the instruction is well formed and its encoding and the
rest are the input. -/
def Obligations.DecodedBytesAreTheEncoding : Prop :=
  ∀ (bs rest : List Byte) (i : Instr), decodeWire bs = .ok i rest →
    i.wellFormed = true ∧ ∃ es, encode i = .wire es ∧ bs = es ++ rest

/-- R92: decodeBytes and the wire decoder reject only too few bytes, and then report the class and the bytes there are;
otherwise they give R93's value and consume the class's bytes, leaving the rest. In R93, c & LIT(i) is c mod 2^(7 - i). -/
def Obligations.OnlyTooFewBytesAreRejected : Prop :=
  decodeWire [] = .truncated 0 0 ∧ decodeBytes [] = .truncated 0 0 ∧
    ∀ (c : Byte) (bs : List Byte),
      (bs.length < prefixClass c →
        decodeWire (c :: bs) = .truncated (prefixClass c) (bs.length + 1) ∧
          decodeBytes (c :: bs) = .truncated (prefixClass c) (bs.length + 1)) ∧
      (prefixClass c ≤ bs.length → ∃ v i, wireInstr (prefixClass c) v = some i ∧
        decodeWire (c :: bs) = .ok i (bs.drop (prefixClass c)) ∧
          decodeBytes (c :: bs) = .ok v (prefixClass c + 1) ∧
          v.toNat =
            (if prefixClass c ≤ 7 then c.toNat % 2 ^ (7 - prefixClass c) * 2 ^ (8 * prefixClass c) else 0) +
              bigEndianNat (bs.take (prefixClass c)))

/-- R68 and R69: OP selects the command; CLASSIFY and ENCODE take all of ARG, PCLASS its low byte, DECODE nothing; ignored
bits change no step of a ready block, and an assembler writes them as 0. -/
def Obligations.CommandWordOperandsAndIgnoredBits : Prop :=
  (∀ x : Value,
    decodeCommand (commandWord 0b00#2 x) = .classify x ∧ decodeCommand (commandWord 0b01#2 x) = .encode x ∧
      decodeCommand (commandWord 0b10#2 x) = .decode ∧
      decodeCommand (commandWord 0b11#2 x) = .pclass (x.extractLsb' 0 8)) ∧
    (∀ (s : State) (rest : List CommandWord) (a b : Value), cmdReady s = true → ResetLow 1 s →
      step { s with cmdPort := commandWord 0b10#2 a :: rest } =
          step { s with cmdPort := commandWord 0b10#2 b :: rest } ∧
        (a.extractLsb' 0 8 = b.extractLsb' 0 8 →
          step { s with cmdPort := commandWord 0b11#2 a :: rest } =
            step { s with cmdPort := commandWord 0b11#2 b :: rest })) ∧
    assemble .decode = some (commandWord 0b10#2 0#64) ∧
    ∀ c, c < 256 → assemble (.pclass c) = some (commandWord 0b11#2 ((BitVec.ofNat 8 c).setWidth 64))

/-- Words written out from the spec's own vectors decode to the instructions they stand for (spec/95_test_vectors.md). -/
def Obligations.SampleWordsDecode : Prop :=
  decodeCommand 0x00000000000004000#66 = .classify 0x4000#64 ∧
    decodeCommand 0x10000000000000080#66 = .encode 0x80#64 ∧
    decodeCommand 0x20000000000000000#66 = .decode ∧
    decodeCommand 0x30123456789ABCDFE#66 = .pclass 0xFE#8 ∧
    decodeWire [0x7F#8] = .ok (.vliC0 0x7F#64) [] ∧
    decodeWire [0xC0#8, 0x40#8, 0x00#8, 0x05#8] = .ok (.vliC2 0x4000#64) [0x05#8] ∧
    decodeWire [0xFF#8, 0x01#8, 0x23#8, 0x45#8, 0x67#8, 0x89#8, 0xAB#8, 0xCD#8, 0xEF#8] =
      .ok (.vliC8 0x0123456789ABCDEF#64) []

/-- R76: the assembler gives the word of the line's instruction, and refuses exactly the operands out of range. The first
two clauses are the rule's example and the program line of spec/95_test_vectors.md section 3. -/
def Obligations.AssembledLinesDecodeToTheirInstruction : Prop :=
  (assembleText ['E', 'N', 'C', 'O', 'D', 'E', ' ', '0', 'x', '8', '0']).map hexDigits =
      some [1, 0, 0, 0, 0, 0, 0, 0, 0, 0, 0, 0, 0, 0, 0, 8, 0] ∧
    (assembleText ['P', 'C', 'L', 'A', 'S', 'S', ' ', '2', '4', '0']).map hexDigits =
      some [3, 0, 0, 0, 0, 0, 0, 0, 0, 0, 0, 0, 0, 0, 0, 15, 0] ∧
    ∀ l : AsmLine,
      (lineInRange l = true → ∃ w, assemble l = some w ∧ decodeCommand w = lineInstr l ∧
        encode (lineInstr l) = .command w) ∧
      (lineInRange l = false → assemble l = none)

/-- R71's layout of the response word: VALUE, COUNT, CLASS and STATUS at their bits, nothing else, and no bit lost. -/
def Obligations.ResponseWordLayout : Prop :=
  (∀ r : Response,
    r.toWord.extractLsb' 0 64 = r.value ∧ r.toWord.extractLsb' 64 4 = r.count ∧
      r.toWord.extractLsb' 68 4 = r.cls ∧ r.toWord.extractLsb' 72 2 = r.status ∧
      Response.ofWord r.toWord = r) ∧
    ∀ w : ResponseWord, (Response.ofWord w).toWord = w

/-! ### The commands -/

/-- R83: CLASSIFY x, in the step that accepts it, responds OK with the class i of x, COUNT i + 1 and VALUE 0; MODE stays
IDLE, DATA, CLS and IDX are unchanged, and no stream is touched. -/
def Obligations.ClassifyRespondsInItsAcceptanceStep : Prop :=
  ∀ (x : Value) (i : Nat), i ≤ 8 → minForClass i ≤ x.toNat → x.toNat ≤ maxForClass i →
    (∀ s : State, exec (.classify x) s = .next { s with
      resp := { status := 0b00#2, cls := BitVec.ofNat 4 i, count := BitVec.ofNat 4 (i + 1), value := 0#64 }
      respValid := true }) ∧
    ∀ (s : State) (rest : List CommandWord), cmdReady s = true → ResetLow 1 s →
      s.cmdPort = commandWord 0b00#2 x :: rest →
      step s = .next { afterLevels 1 s with
        cmdPort := rest
        resp := { status := 0b00#2, cls := BitVec.ofNat 4 i, count := BitVec.ofNat 4 (i + 1), value := 0#64 }
        respValid := true }

/-- R84: PCLASS c, in the step that accepts it, responds OK with the class i of the byte c, COUNT i + 1 and VALUE 0, and
changes nothing else; ARG[63:8] is ignored. -/
def Obligations.PclassRespondsInItsAcceptanceStep : Prop :=
  ∀ (c : Byte) (i : Nat), i ≤ 8 → c &&& hdr i = pfx i →
    (∀ s : State, exec (.pclass c) s = .next { s with
      resp := { status := 0b00#2, cls := BitVec.ofNat 4 i, count := BitVec.ofNat 4 (i + 1), value := 0#64 }
      respValid := true }) ∧
    ∀ (s : State) (rest : List CommandWord) (arg : Value), arg.extractLsb' 0 8 = c → cmdReady s = true → ResetLow 1 s →
      s.cmdPort = commandWord 0b11#2 arg :: rest →
      step s = .next { afterLevels 1 s with
        cmdPort := rest
        resp := { status := 0b00#2, cls := BitVec.ofNat 4 i, count := BitVec.ofNat 4 (i + 1), value := 0#64 }
        respValid := true }

/-- The acceptance step of ENCODE (R89): DATA = x, CLS = the class i of x, IDX = 0, MODE = ENC, nothing else, where a sink
is attached. -/
def Obligations.EncodeAcceptanceWritesTheTransaction : Prop :=
  ∀ (x : Value) (i : Nat), i ≤ 8 → minForClass i ≤ x.toNat → x.toNat ≤ maxForClass i →
    ∀ s : State, s.sink.isSome = true →
      exec (.encode x) s = .next { s with data := x, cls := BitVec.ofNat 4 i, idx := 0#4, mode := .enc }

/-- The acceptance step of DECODE (R98): IDX = 0 and MODE = DEC, nothing else, where a source is attached. That DATA and CLS
keep their values is read from the pseudocode (log entry 11). -/
def Obligations.DecodeAcceptanceStartsTheTransaction : Prop :=
  ∀ s : State, s.source.isSome = true → exec .decode s = .next { s with idx := 0#4, mode := .dec }

/-- Row I18 of spec/93_implementation_defined.md: with nothing attached an ENCODE or a DECODE is refused, and neither
CLASSIFY nor PCLASS needs a stream (R121). -/
def Obligations.OnlyUnattachedStreamsAreRefused : Prop :=
  ∀ (i : Instr) (s : State) (r : Refusal),
    exec i s = .refused r ↔
      (∃ x, i = .encode x ∧ s.sink = none ∧ r = .noSinkAttached) ∨
        (i = .decode ∧ s.source = none ∧ r = .noSourceAttached)

/-- Each wire instruction, when a DECODE has read its last byte, ends the command: MODE = IDLE, CLS = i, DATA = x,
IDX = i + 1, and the response OK with CLASS i, COUNT i + 1 and VALUE x; nothing else changes (R96, R98, R99; that running
it is this step is log entry 5). -/
def Obligations.WireInstructionsEndTheDecode : Prop :=
  ∀ (i : Nat) (x : Value) (j : Instr) (s : State), wireInstr i x = some j →
    exec j s = .next { s with
      mode := .idle
      data := x
      cls := BitVec.ofNat 4 i
      idx := BitVec.ofNat 4 (i + 1)
      resp := { status := 0b00#2, cls := BitVec.ofNat 4 i, count := BitVec.ofNat 4 (i + 1), value := x }
      respValid := true }

/-! ### Steps of a command in progress -/

/-- A step of a ready block runs the command its port's word decodes to, with the word taken off the port and the reset
line moved on. -/
def Obligations.StepRunsTheCommandPresented : Prop :=
  ∀ (s : State) (w : CommandWord) (rest : List CommandWord), cmdReady s = true → ResetLow 1 s → s.cmdPort = w :: rest →
    step s = exec (decodeCommand w) { afterLevels 1 s with cmdPort := rest }

/-- A step that reads the last byte of a wire instruction runs it, with the byte consumed and the reset line moved on: the
byte b completes the class of the first byte (R99), and the value is the literal bits read (R93). That the bytes
are fetched as an instruction is the model's choice (log entry 5). -/
def Obligations.StepRunsTheWireInstructionRead : Prop :=
  ∀ (s : State) (b : Byte) (answers : List SrcAnswer) (consumed : List Byte) (i : Instr),
    s.mode = .dec → ResetLow 1 s → s.source = some { answers := .byte b :: answers, consumed := consumed } →
    (s.idx = 0#4 → prefixClass b = 0 ∧ wireInstr 0 ((b &&& lit 0).setWidth 64) = some i) →
    (s.idx ≠ 0#4 → s.idx = s.cls ∧ wireInstr s.cls.toNat ((s.data <<< 8) ||| b.setWidth 64) = some i) →
    step s = exec i { afterLevels 1 s with source := some { answers := answers, consumed := consumed ++ [b] } }

/-- R90's write step: byte IDX of encode(DATA) goes to the sink. Ok counts it, and the last one ends the command with OK,
CLASS CLS, COUNT CLS + 1; IoFail ends it with IO_ERROR, CLASS CLS and COUNT IDX. Nothing else changes, but that a failing
write may leave bytes on the sink (log entry 9). -/
def Obligations.EncodeWriteStep : Prop :=
  ∀ (s : State) (held : List Byte) (answers : List SinkAnswer) (b : Byte),
    s.mode = .enc → EncodeInProgress s → ResetLow 1 s → (encodeValue s.data)[s.idx.toNat]? = some b →
    (s.sink = some { held := held, answers := .ok :: answers } → s.idx ≠ s.cls →
      step s = .next { afterLevels 1 s with
        sink := some { held := held ++ [b], answers := answers }
        idx := s.idx + 1#4 }) ∧
    (s.sink = some { held := held, answers := .ok :: answers } → s.idx = s.cls →
      step s = .next { afterLevels 1 s with
        sink := some { held := held ++ [b], answers := answers }
        idx := s.idx + 1#4
        mode := .idle
        resp := { status := 0b00#2, cls := s.cls, count := s.cls + 1#4, value := 0#64 }
        respValid := true }) ∧
    (∀ left, s.sink = some { held := held, answers := .ioFail left :: answers } →
      step s = .next { afterLevels 1 s with
        sink := some { held := held ++ left, answers := answers }
        mode := .idle
        resp := { status := 0b10#2, cls := s.cls, count := s.idx, value := 0#64 }
        respValid := true })

/-- R99's read step, in its own words: C and D are CLS and DATA as the byte writes them. A byte short of the class's length
is accumulated, the last one responds OK; Exhausted and IoFail end the command with their status. -/
def Obligations.DecodeReadStep : Prop :=
  ∀ (s : State) (answers : List SrcAnswer) (consumed : List Byte),
    s.mode = .dec → DecodeInProgress s → ResetLow 1 s →
    (∀ (b : Byte) (C : Nat) (D : Value), s.source = some { answers := .byte b :: answers, consumed := consumed } →
      C = (if s.idx = 0#4 then prefixClass b else s.cls.toNat) →
      D = (if s.idx = 0#4 then (b &&& lit (prefixClass b)).setWidth 64 else (s.data <<< 8) ||| b.setWidth 64) →
      (s.idx.toNat ≠ C →
        step s = .next { afterLevels 1 s with
          source := some { answers := answers, consumed := consumed ++ [b] }
          cls := BitVec.ofNat 4 C
          data := D
          idx := s.idx + 1#4 }) ∧
      (s.idx.toNat = C →
        step s = .next { afterLevels 1 s with
          source := some { answers := answers, consumed := consumed ++ [b] }
          cls := BitVec.ofNat 4 C
          data := D
          idx := s.idx + 1#4
          mode := .idle
          resp := { status := 0b00#2, cls := BitVec.ofNat 4 C, count := s.idx + 1#4, value := D }
          respValid := true })) ∧
    (s.source = some { answers := .exhausted :: answers, consumed := consumed } →
      step s = .next { afterLevels 1 s with
        source := some { answers := answers, consumed := consumed }
        mode := .idle
        resp := { status := 0b01#2, cls := if s.idx = 0#4 then 0#4 else s.cls, count := s.idx, value := 0#64 }
        respValid := true }) ∧
    (s.source = some { answers := .ioFail :: answers, consumed := consumed } →
      step s = .next { afterLevels 1 s with
        source := some { answers := answers, consumed := consumed }
        mode := .idle
        resp := { status := 0b10#2, cls := if s.idx = 0#4 then 0#4 else s.cls, count := s.idx, value := 0#64 }
        respValid := true })

/-- R35: a transfer answered Exhausted or IoFail is not repeated: its one answer is used up and the command ends at it. -/
def Obligations.FailedTransfersAreNotRepeated : Prop :=
  ∀ s : State, ResetLow 1 s →
    (∀ held left answers, s.mode = .enc → EncodeInProgress s →
      s.sink = some { held := held, answers := .ioFail left :: answers } →
      ∃ t, step s = .next t ∧ t.mode = .idle ∧ t.respValid = true ∧ t.resp.status ≠ 0b00#2 ∧
        t.sink.map Sink.answers = some answers ∧ t.source = s.source) ∧
    (∀ a consumed answers, s.mode = .dec → a = .exhausted ∨ a = .ioFail →
      s.source = some { answers := a :: answers, consumed := consumed } →
      ∃ t, step s = .next t ∧ t.mode = .idle ∧ t.respValid = true ∧ t.resp.status ≠ 0b00#2 ∧
        t.source = some { answers := answers, consumed := consumed } ∧ t.sink = s.sink)

/-- The holds (R33, R34, R117, R127, I2, I4): with the reset line low for good there is no step, under a name of its own
(log entry 2); while the line still has a low level to come, the block takes no step and only the line moves on (log
entry 19). -/
def Obligations.HoldsUntilTheEnvironmentMoves : Prop :=
  ∀ (s : State) (f : Fault),
    (s.mode = .enc ∧ EncodeInProgress s ∧ s.sink.map Sink.answers = some [] ∧ f = .waitSink) ∨
      (s.mode = .dec ∧ s.source.map Source.answers = some [] ∧ f = .waitSource) ∨
      (s.mode = .idle ∧ s.respValid = true ∧ s.hostTakes = 0 ∧ f = .waitTake) ∨
      (cmdReady s = true ∧ s.cmdPort = [] ∧ f = .waitCommand) →
    (s.resetLine = [] → step s = .fault f) ∧
      ∀ line, s.resetLine = false :: line → step s = .next { s with resetLine := line }

/-! ### Whole commands -/

/-- R89, R90, R91 and R128, all writes Ok: after 1 + (classify(x) + 1) steps an ENCODE x has put exactly encode(x) on the
sink, in order, and has responded OK with CLASS classify(x) and COUNT classify(x) + 1. -/
def Obligations.EncodeRunWritesTheEncoding : Prop :=
  ∀ (x : Value) (s : State) (rest : List CommandWord) (held : List Byte) (answers : List SinkAnswer),
    cmdReady s = true → s.cmdPort = commandWord 0b01#2 x :: rest →
    s.sink = some { held := held, answers := List.replicate (classify x + 1) .ok ++ answers } →
    ResetLow (classify x + 2) s →
    run (classify x + 2) s = .next { afterLevels (classify x + 2) s with
      cmdPort := rest
      data := x
      cls := BitVec.ofNat 4 (classify x)
      idx := BitVec.ofNat 4 (classify x + 1)
      sink := some { held := held ++ encodeValue x, answers := answers }
      resp := { status := 0b00#2, cls := BitVec.ofNat 4 (classify x),
                count := BitVec.ofNat 4 (classify x + 1), value := 0#64 }
      respValid := true }

/-- R90, R104, R106: an ENCODE whose write k + 1 fails leaves exactly e0..e(k-1) on the sink, and what the failing write
itself leaves (log entry 9), and has responded IO_ERROR with CLASS classify(x), COUNT k and VALUE 0. -/
def Obligations.EncodeRunStopsAtTheFailingWrite : Prop :=
  ∀ (x : Value) (k : Nat) (s : State) (rest : List CommandWord) (held left : List Byte) (answers : List SinkAnswer),
    k ≤ classify x → cmdReady s = true → s.cmdPort = commandWord 0b01#2 x :: rest →
    s.sink = some { held := held, answers := List.replicate k .ok ++ .ioFail left :: answers } →
    ResetLow (k + 2) s →
    run (k + 2) s = .next { afterLevels (k + 2) s with
      cmdPort := rest
      data := x
      cls := BitVec.ofNat 4 (classify x)
      idx := BitVec.ofNat 4 k
      sink := some { held := held ++ (encodeValue x).take k ++ left, answers := answers }
      resp := { status := 0b10#2, cls := BitVec.ofNat 4 (classify x), count := BitVec.ofNat 4 k, value := 0#64 }
      respValid := true }

/-- R101, "Agreement with the function [derived: from rules R92, R99 and R100]": a DECODE on a source that gives the bytes
bs and then Exhausted responds as decodeBytes(bs) says, and leaves the source at the byte after those it consumed. -/
def Obligations.DecodeRunAgreesWithDecodeBytes : Prop :=
  ∀ (bs : List Byte) (s : State) (arg : Value) (rest : List CommandWord) (consumed : List Byte) (more : List SrcAnswer),
    cmdReady s = true → s.cmdPort = commandWord 0b10#2 arg :: rest →
    s.source = some { answers := bs.map .byte ++ .exhausted :: more, consumed := consumed } →
    (∀ v n, decodeBytes bs = .ok v n → ResetLow (n + 1) s →
      run (n + 1) s = .next { afterLevels (n + 1) s with
        cmdPort := rest
        data := v
        cls := BitVec.ofNat 4 (n - 1)
        idx := BitVec.ofNat 4 n
        source := some { answers := (bs.drop n).map .byte ++ .exhausted :: more, consumed := consumed ++ bs.take n }
        resp := { status := 0b00#2, cls := BitVec.ofNat 4 (n - 1), count := BitVec.ofNat 4 n, value := v }
        respValid := true }) ∧
    (∀ c k, decodeBytes bs = .truncated c k → ResetLow (k + 2) s →
      ∃ data cls, run (k + 2) s = .next { afterLevels (k + 2) s with
        cmdPort := rest
        data := data
        cls := cls
        idx := BitVec.ofNat 4 k
        source := some { answers := more, consumed := consumed ++ bs }
        resp := { status := 0b01#2, cls := BitVec.ofNat 4 c, count := BitVec.ofNat 4 k, value := 0#64 }
        respValid := true })

/-- R105's table, row by row: an ENCODE failing at write k + 1; a DECODE failing before any byte; a DECODE failing at read
k + 1 after k >= 1 bytes, fewer than its class asks for. -/
def Obligations.ResponseFieldsOnAnError : Prop :=
  (∀ (x : Value) (k : Nat) (s : State) (rest : List CommandWord) (held left : List Byte) (answers : List SinkAnswer),
    k ≤ classify x → cmdReady s = true → s.cmdPort = commandWord 0b01#2 x :: rest →
    s.sink = some { held := held, answers := List.replicate k .ok ++ .ioFail left :: answers } →
    ResetLow (k + 2) s →
    ∃ t, run (k + 2) s = .next t ∧ t.respValid = true ∧
      t.resp = { status := 0b10#2, cls := BitVec.ofNat 4 (classify x), count := BitVec.ofNat 4 k, value := 0#64 }) ∧
    ∀ (s : State) (arg : Value) (rest : List CommandWord) (consumed : List Byte) (more : List SrcAnswer)
      (a : SrcAnswer) (status : Status),
      (a = .exhausted ∧ status = 0b01#2) ∨ (a = .ioFail ∧ status = 0b10#2) →
      cmdReady s = true → s.cmdPort = commandWord 0b10#2 arg :: rest →
      (s.source = some { answers := a :: more, consumed := consumed } → ResetLow 2 s →
        ∃ t, run 2 s = .next t ∧ t.respValid = true ∧
          t.resp = { status := status, cls := 0#4, count := 0#4, value := 0#64 }) ∧
      ∀ (c : Byte) (bs : List Byte), bs.length < prefixClass c →
        s.source = some { answers := (c :: bs).map .byte ++ a :: more, consumed := consumed } →
        ResetLow (bs.length + 3) s →
        ∃ t, run (bs.length + 3) s = .next t ∧ t.respValid = true ∧
          t.resp = { status := status, cls := BitVec.ofNat 4 (prefixClass c),
                     count := BitVec.ofNat 4 (bs.length + 1), value := 0#64 }

/-- Reading the bytes of a well-formed wire instruction one by one, from the first, is running the instruction once they
have all been consumed: the byte steps of R99 add nothing to it and lose nothing of it (log entry 5). -/
def Obligations.ReadingAnEncodingRunsItsInstruction : Prop :=
  ∀ (i : Nat) (x : Value) (j : Instr) (s : State) (consumed : List Byte) (more : List SrcAnswer),
    wireInstr i x = some j → j.wellFormed = true → s.mode = .dec → s.idx = 0#4 →
    s.source = some { answers := (encode j).bytes.map .byte ++ more, consumed := consumed } →
    ResetLow (i + 1) s →
    run (i + 1) s = exec j { afterLevels (i + 1) s with
      source := some { answers := more, consumed := consumed ++ (encode j).bytes } }

/-- The round trip of R97 through two runs of the machine: the bytes an ENCODE x adds to its sink, served to a DECODE
whatever its argument and whatever follows them, give back x, its class and its length, and are all that is consumed. -/
def Obligations.RoundTripThroughTheStreams : Prop :=
  ∀ (x : Value) (s : State) (rest : List CommandWord) (held : List Byte) (answers : List SinkAnswer),
    cmdReady s = true → s.cmdPort = commandWord 0b01#2 x :: rest →
    s.sink = some { held := held, answers := List.replicate (classify x + 1) .ok ++ answers } →
    ResetLow (classify x + 2) s →
    ∃ t bytes, run (classify x + 2) s = .next t ∧ t.sink = some { held := held ++ bytes, answers := answers } ∧
      ∀ (u : State) (arg : Value) (later : List CommandWord) (consumed : List Byte) (more : List SrcAnswer),
        cmdReady u = true → u.cmdPort = commandWord 0b10#2 arg :: later →
        u.source = some { answers := bytes.map .byte ++ more, consumed := consumed } →
        ResetLow (classify x + 2) u →
        ∃ v, run (classify x + 2) u = .next v ∧ v.respValid = true ∧
          v.resp = { status := 0b00#2, cls := BitVec.ofNat 4 (classify x),
                     count := BitVec.ofNat 4 (classify x + 1), value := x } ∧
          v.source = some { answers := more, consumed := consumed ++ bytes }

/-! ### The machine -/

/-- R26: CMD_READY is MODE = IDLE and RESP_VALID = 0, and a command leaves the port, one at a time and in order, only in a
step where it is 1 (and reset is low, R120). -/
def Obligations.CommandsAreAcceptedOnlyWhenReady : Prop :=
  (∀ s : State, cmdReady s = true ↔ s.mode = .idle ∧ s.respValid = false) ∧
    ∀ s t : State, step s = .next t →
      t.cmdPort = s.cmdPort ∨ (cmdReady s = true ∧ ResetLow 1 s ∧ ∃ w, s.cmdPort = w :: t.cmdPort)

/-- R25: respond sets the four fields and RESP_VALID in one step; a step in which the host takes a response clears
RESP_VALID, keeps RESP and happens only while RESP_VALID = 1. Nothing but a response (or a reset, R118) changes RESP. -/
def Obligations.ResponseSlotIsFilledAndTaken : Prop :=
  (∀ (status : Status) (cls count : Nibble) (value : Value) (s : State),
    respond status cls count value s =
      { s with resp := { status := status, cls := cls, count := count, value := value }, respValid := true }) ∧
    ∀ s t : State, step s = .next t →
      (t.taken = s.taken ∨
        (s.respValid = true ∧ t.respValid = false ∧ t.resp = s.resp ∧ t.taken = s.taken ++ [s.resp])) ∧
      (t.resp ≠ s.resp → t.respValid = true ∨ ∃ line, s.resetLine = true :: line)

/-- The host's take as a step of its own, in an idle block (log entry 14): it clears RESP_VALID and nothing else of the
block; a response with STATUS 0b11 is a fault there instead, as row I13 of spec/93_implementation_defined.md says (log
entry 13). -/
def Obligations.HostTakesAResponseInAStepOfItsOwn : Prop :=
  ∀ (s : State) (n : Nat), s.mode = .idle → s.respValid = true → s.hostTakes = n + 1 → ResetLow 1 s →
    (s.resp.status ≠ 0b11#2 →
      step s = .next { afterLevels 1 s with respValid := false, hostTakes := n, taken := s.taken ++ [s.resp] }) ∧
    (s.resp.status = 0b11#2 → step s = .fault .statusNeverProduced)

/-- R118 and R119 for the two fields that have a reset value: after reset MODE = IDLE, RESP_VALID = 0 and CMD_READY = 1, and
the block waits for its first command; the name of that hold is the model's choice (log entry 2). -/
def Obligations.AfterResetTheBlockWaitsForACommand : Prop :=
  State.reset.mode = .idle ∧ State.reset.respValid = false ∧ cmdReady State.reset = true ∧
    step State.reset = .fault .waitCommand

/-- R120: an asserted reset, whatever is in progress, ends it with no response and takes R118's values; a response not taken
is discarded; the streams, the word waiting on the port and what was taken stay; the word is accepted after reset. -/
def Obligations.ResetEndsTheCommandAndKeepsTheStreams : Prop :=
  ∀ (s : State) (line : List Bool), s.resetLine = true :: line →
    ∃ t, step s = .next t ∧ t.mode = .idle ∧ t.respValid = false ∧ cmdReady t = true ∧ t.resetLine = line ∧
      t.cmdPort = s.cmdPort ∧ t.source = s.source ∧ t.sink = s.sink ∧ t.taken = s.taken ∧ t.hostTakes = s.hostTakes ∧
      ∀ w rest, s.cmdPort = w :: rest → ResetLow 1 t →
        step t = exec (decodeCommand w) { afterLevels 1 t with cmdPort := rest }

/-- D22, R31, R34, R41 and R100 over every step: only an ENCODE in progress touches the sink, and what is on it is never
taken back; only a DECODE in progress touches the source, one answer a step, and it consumes exactly the byte answered.
What a failing write leaves on the sink is open (log entry 9). -/
def Obligations.StreamsChangeOnlyByTheirOwnTransfers : Prop :=
  ∀ s t : State, step s = .next t →
    (s.mode ≠ .enc → t.sink = s.sink) ∧ (s.mode ≠ .dec → t.source = s.source) ∧
      (∀ k, s.sink = some k → ∃ k', t.sink = some k' ∧
        (k' = k ∨ ∃ a, k.answers = a :: k'.answers ∧
          ((a = .ok ∧ ∃ b, (encodeValue s.data)[s.idx.toNat]? = some b ∧ k'.held = k.held ++ [b]) ∨
            ∃ left, a = .ioFail left ∧ k'.held = k.held ++ left))) ∧
      (∀ q, s.source = some q → ∃ q', t.source = some q' ∧
        (q' = q ∨ ∃ a, q.answers = a :: q'.answers ∧
          ((∃ b, a = .byte b ∧ q'.consumed = q.consumed ++ [b]) ∨
            ((a = .exhausted ∨ a = .ioFail) ∧ q'.consumed = q.consumed))))

/-- R102 to R104 over every step that produces a response: TRUNCATED only from a DECODE whose source answers Exhausted,
IO_ERROR only from an IoFail of the stream in use, and never the status 0b11. -/
def Obligations.ErrorsComeOnlyFromFailedTransfers : Prop :=
  ∀ s t : State, step s = .next t → s.respValid = false → t.respValid = true →
    t.resp.status ≠ 0b11#2 ∧
      (t.resp.status = 0b01#2 → s.mode = .dec ∧ ∃ q rest, s.source = some q ∧ q.answers = .exhausted :: rest) ∧
      (t.resp.status = 0b10#2 →
        (s.mode = .dec ∧ ∃ q rest, s.source = some q ∧ q.answers = .ioFail :: rest) ∨
          (s.mode = .enc ∧ ∃ k left rest, s.sink = some k ∧ k.answers = .ioFail left :: rest))

/-- The invariant of the transaction state holds after reset. -/
def Obligations.InvariantHoldsAtReset : Prop := StateInv State.reset

/-- Every step keeps the invariant of the transaction state: a response stands only in an idle block and is legal (R71,
R72, R105), an ENCODE holds CLS = classify(DATA) (R23), IDX never passes CLS (R24), and the accumulator of a DECODE never
loses a bit (R22, R94). -/
def Obligations.EveryStepKeepsTheInvariant : Prop :=
  ∀ s t : State, StateInv s → step s = .next t → StateInv t

/-- R102: from a state of the invariant nothing but a hold (under its own name, log entry 2) or an unattached stream (log
entry 8) stands in the way of a step: no illegal command, no invalid encoding, no other fault. -/
def Obligations.OnlyHoldsAndUnattachedStreamsStopAStep : Prop :=
  ∀ s : State, StateInv s →
    (∀ f, step s = .fault f →
      s.resetLine = [] ∧ (f = .waitCommand ∨ f = .waitTake ∨ f = .waitSource ∨ f = .waitSink)) ∧
    ∀ r, step s = .refused r →
      (r = .noSinkAttached ∧ s.sink = none) ∨ (r = .noSourceAttached ∧ s.source = none)

/-- R15 and R29: what a run shows outside the block depends only on the commands and the streams' answers. Two states that
differ in fields no command will read before writing them (the unspecified reset values, RESP while RESP_VALID = 0) give
the same responses, the same stream traffic and the same stops, through any resets as well (log entries 3 and 4). -/
def Obligations.UnwrittenFieldsNeverReachTheOutside : Prop :=
  ∀ (n : Nat) (s t : State), SameOutside s t →
    (∀ s', run n s = .next s' →
      ∃ t', run n t = .next t' ∧ SameOutside s' t' ∧ observe s' = observe t' ∧ hostView s' = hostView t') ∧
    (∀ f, run n s = .fault f → run n t = .fault f) ∧
    ∀ r, run n s = .refused r → run n t = .refused r

/-- R30 and R114: on a platform, whatever the schedule, each instance is where it would be if it had run its own steps
alone (log entry 16). R8 and I17: PLATFORM_MAP stays, and nothing the instances do depends on it (log entry 17). -/
def Obligations.InstancesRunAsTheyWouldAlone : Prop :=
  ∀ (schedule : List Nat) (p q : Platform), Platform.run schedule p = .next q →
    q.instances.length = p.instances.length ∧ q.map = p.map ∧
      (∀ k s, p.instances[k]? = some s → ∃ t, run (schedule.count k) s = .next t ∧ q.instances[k]? = some t) ∧
      ∀ m : PlatformMap, Platform.run schedule { p with map := m } = .next { q with map := m }
end

