-- ==== Sys2Proof/Laws/Classes.lean ====
section
/-! SUPPORT. What the two class tests answer (spec/40_classifier.md R77, R80), said once. -/

namespace Sys2Proof.Machine

/-- Everything firstClass answers: a class in 0..8 that fits unless it is 8, and before which none fits. -/
theorem firstClass_spec (fits : Nat → Bool) :
    firstClass fits ≤ 8 ∧ (firstClass fits < 8 → fits (firstClass fits) = true) ∧
      ∀ i < firstClass fits, fits i = false := by
  unfold firstClass
  split_ifs with h0 h1 h2 h3 h4 h5 h6 h7 <;>
    refine ⟨by omega, fun _ => by first | assumption | omega, fun i hi => ?_⟩ <;>
    interval_cases i <;> simp_all

theorem classify_le (x : Value) : classify x ≤ 8 := (firstClass_spec _).1

theorem prefixClass_le (c : Byte) : prefixClass c ≤ 8 := (firstClass_spec _).1

/-- The maxima increase. -/
theorem maxForClass_mono {i j : Nat} (h : i ≤ j) : maxForClass i ≤ maxForClass j := by
  unfold maxForClass
  split_ifs with hi hj hj
  · exact Nat.sub_le_sub_right (Nat.pow_le_pow_right (by norm_num) (by omega)) 1
  · exact Nat.sub_le_sub_right (Nat.pow_le_pow_right (by norm_num) (by omega)) 1
  · omega
  · exact le_refl _

/-- A value fits its class. -/
theorem le_maxForClass_classify (x : Value) : x.toNat ≤ maxForClass (classify x) := by
  have h := (firstClass_spec fun i => decide (x.toNat ≤ maxForClass i)).2.1
  by_cases h8 : classify x < 8
  · exact of_decide_eq_true (h h8)
  · have : classify x = 8 := by have := classify_le x; omega
    rw [this]
    have := x.isLt
    norm_num [maxForClass]
    omega

/-- A value fits no smaller class. -/
theorem maxForClass_lt_of_lt_classify {x : Value} {i : Nat} (h : i < classify x) : maxForClass i < x.toNat := by
  have := (firstClass_spec fun i => decide (x.toNat ≤ maxForClass i)).2.2 i h
  simpa using this

/-- The class is the least that a value fits. -/
theorem classify_le_iff {x : Value} {i : Nat} : classify x ≤ i ↔ x.toNat ≤ maxForClass i := by
  constructor
  · exact fun h => (le_maxForClass_classify x).trans (maxForClass_mono h)
  · intro h
    by_contra hc
    exact absurd (maxForClass_lt_of_lt_classify (not_le.mp hc)) (by omega)

/-- The values of class i are those between its bounds (R50). -/
theorem classify_eq_iff {x : Value} {i : Nat} (h8 : i ≤ 8) :
    classify x = i ↔ minForClass i ≤ x.toNat ∧ x.toNat ≤ maxForClass i := by
  unfold minForClass
  split_ifs with h0
  · subst h0
    have := classify_le_iff (x := x) (i := 0)
    omega
  · have h1 := classify_le_iff (x := x) (i := i)
    have h2 := classify_le_iff (x := x) (i := i - 1)
    omega

/-- The bytes of class i are those between PFX(i) and THR(i) (R81). -/
theorem prefixClass_bounds (c : Byte) :
    (pfx (prefixClass c)).toNat ≤ c.toNat ∧ c.toNat ≤ (thr (prefixClass c)).toNat := by
  revert c
  decide

theorem prefixClass_eq_of_bounds : ∀ i ≤ 8, ∀ c : Byte,
    (pfx i).toNat ≤ c.toNat → c.toNat ≤ (thr i).toNat → prefixClass c = i := by
  decide

/-- The literal bits of a first byte of class i are what it has above PFX(i). -/
theorem and_lit_toNat (c : Byte) :
    (c &&& lit (prefixClass c)).toNat + (pfx (prefixClass c)).toNat = c.toNat := by
  revert c
  decide

end Sys2Proof.Machine
end

