-- ==== Sys2Proof/Laws/Coding.lean ====
section
/-! SUPPORT. Encodings as numbers: every encoding of class i is the (i+1)-byte big-endian form of PFX(i)*2^(8*i) + x
(spec/30_encoding.md R64), and the decoder subtracts what the encoder adds (spec/42_decoder.md R93). Every fact about
encodings rests on these two. -/

namespace Sys2Proof.Machine

/-! ### Big-endian byte lists -/

/-- The number of a big-endian byte list (R9). -/
def beNat (bs : List Byte) : Nat := bs.foldl (fun n b => n * 256 + b.toNat) 0

/-- The n-byte big-endian form of a number. -/
def beBytes (n N : Nat) : List Byte := (List.range n).map fun k => BitVec.ofNat 8 (N / 2 ^ (8 * (n - 1 - k)))

@[simp] theorem beNat_nil : beNat [] = 0 := rfl

@[simp] theorem beNat_snoc (bs : List Byte) (b : Byte) : beNat (bs ++ [b]) = beNat bs * 256 + b.toNat := by
  simp [beNat]

theorem beNat_foldl (bs : List Byte) (n : Nat) :
    bs.foldl (fun n b => n * 256 + b.toNat) n = n * 256 ^ bs.length + beNat bs := by
  induction bs using List.reverseRecOn with
  | nil => simp
  | append_singleton bs b ih =>
    simp only [List.foldl_append, List.foldl_cons, List.foldl_nil, ih, beNat_snoc, List.length_append,
      List.length_cons, List.length_nil, pow_succ]
    ring

theorem beNat_cons (c : Byte) (bs : List Byte) : beNat (c :: bs) = c.toNat * 256 ^ bs.length + beNat bs := by
  have := beNat_foldl bs c.toNat
  simpa [beNat] using this

theorem beNat_lt (bs : List Byte) : beNat bs < 256 ^ bs.length := by
  induction bs using List.reverseRecOn with
  | nil => simp
  | append_singleton bs b ih =>
    have := b.isLt
    simp only [beNat_snoc, List.length_append, List.length_cons, List.length_nil, pow_succ]
    omega

@[simp] theorem beBytes_length (n N : Nat) : (beBytes n N).length = n := by simp [beBytes]

theorem beBytes_succ (n N : Nat) : beBytes (n + 1) N = beBytes n (N / 256) ++ [BitVec.ofNat 8 N] := by
  simp only [beBytes, List.range_succ, List.map_append, List.map_cons, List.map_nil, Nat.add_sub_cancel,
    Nat.sub_self, Nat.mul_zero, pow_zero, Nat.div_one]
  congr 1
  refine List.map_congr_left fun k hk => ?_
  rw [List.mem_range] at hk
  rw [Nat.div_div_eq_div_mul, show (256 : Nat) = 2 ^ 8 from rfl, ← pow_add]
  congr 3
  omega

theorem beBytes_beNat (bs : List Byte) : beBytes bs.length (beNat bs) = bs := by
  induction bs using List.reverseRecOn with
  | nil => rfl
  | append_singleton bs b ih =>
    have hb := b.isLt
    rw [List.length_append, List.length_singleton, beBytes_succ, beNat_snoc,
      show (beNat bs * 256 + b.toNat) / 256 = beNat bs by omega, ih]
    congr 2
    apply BitVec.eq_of_toNat_eq
    rw [BitVec.toNat_ofNat]
    omega

theorem beNat_beBytes (n N : Nat) (h : N < 256 ^ n) : beNat (beBytes n N) = N := by
  induction n generalizing N with
  | zero => simp only [pow_zero, Nat.lt_one_iff] at h; simp [h, beBytes]
  | succ n ih =>
    rw [pow_succ] at h
    rw [beBytes_succ, beNat_snoc, ih _ (by omega), BitVec.toNat_ofNat]
    omega

/-- Byte lists of one length with one number are equal. -/
theorem beNat_injective {as bs : List Byte} (hl : as.length = bs.length) (hn : beNat as = beNat bs) : as = bs := by
  rw [← beBytes_beNat as, ← beBytes_beNat bs, hl, hn]

/-! ### The accumulator -/

theorem pushByte_toNat {v : Value} (b : Byte) (h : v.toNat < 2 ^ 56) :
    (pushByte v b).toNat = v.toNat * 256 + b.toNat := by
  have hb := b.isLt
  rw [pushByte, BitVec.toNat_or, BitVec.toNat_shiftLeft, BitVec.toNat_setWidth,
    Nat.mod_eq_of_lt (a := b.toNat) (by omega), Nat.shiftLeft_eq, Nat.mod_eq_of_lt (by omega), ← Nat.shiftLeft_eq,
    ← Nat.shiftLeft_add_eq_or_of_lt (by omega), Nat.shiftLeft_eq]

theorem bigEndian_snoc (bs : List Byte) (b : Byte) : bigEndian (bs ++ [b]) = pushByte (bigEndian bs) b := by
  simp [bigEndian]

/-- A fold of pushByte loses no bit while the number stays in 64 bits. -/
theorem foldl_pushByte_toNat (bs : List Byte) (v : Value) (h : v.toNat * 256 ^ bs.length + beNat bs < 2 ^ 64) :
    (bs.foldl pushByte v).toNat = v.toNat * 256 ^ bs.length + beNat bs := by
  induction bs using List.reverseRecOn with
  | nil => simp
  | append_singleton bs b ih =>
    simp only [List.length_append, List.length_singleton, pow_succ, ← Nat.mul_assoc, beNat_snoc] at h ⊢
    generalize hA : v.toNat * 256 ^ bs.length = A at ih h ⊢
    have ih := ih (by omega)
    rw [List.foldl_append, List.foldl_cons, List.foldl_nil, pushByte_toNat b (by omega), ih]
    omega

theorem bigEndian_toNat (bs : List Byte) (h : bs.length ≤ 8) : (bigEndian bs).toNat = beNat bs := by
  have hlt := (beNat_lt bs).trans_le (Nat.pow_le_pow_right (n := 256) (by norm_num) h)
  have := foldl_pushByte_toNat bs 0#64 (by simp only [BitVec.toNat_ofNat]; omega)
  simpa [bigEndian] using this

/-! ### The decoder's value -/

theorem pfx_thr (i : Nat) (h : i ≤ 7) : (thr i).toNat = (pfx i).toNat + 2 ^ (7 - i) - 1 := by
  interval_cases i <;> rfl

theorem maxForClass_of_le {i : Nat} (h : i ≤ 7) : maxForClass i + 1 = 2 ^ (7 - i) * 2 ^ (8 * i) := by
  interval_cases i <;> rfl

/-- The literal bits of a first byte of class i below 8 number at most 7 - i. -/
theorem and_lit_lt (c : Byte) (h : prefixClass c ≤ 7) :
    (c &&& lit (prefixClass c)).toNat < 2 ^ (7 - prefixClass c) := by
  have h1 := and_lit_toNat c
  have h2 := prefixClass_bounds c
  have h3 := pfx_thr _ h
  have := Nat.pos_of_neZero (2 ^ (7 - prefixClass c))
  omega

/-- R93's value is the number of all the bytes less the prefix, and it is in the class's range (R94). -/
theorem literalValue_toNat (c : Byte) (bs : List Byte) (h : bs.length = prefixClass c) :
    (literalValue (prefixClass c) c bs).toNat + (pfx (prefixClass c)).toNat * 2 ^ (8 * prefixClass c) =
        beNat (c :: bs) ∧
      (literalValue (prefixClass c) c bs).toNat ≤ maxForClass (prefixClass c) := by
  have h8 := prefixClass_le c
  have hbe := bigEndian_toNat bs (by omega)
  have hlt := beNat_lt bs
  have hpow : (256 : Nat) ^ bs.length = 2 ^ (8 * prefixClass c) := by
    rw [h, show (256 : Nat) = 2 ^ 8 from rfl, ← pow_mul]
  have hand := and_lit_toNat c
  rw [beNat_cons, hpow]
  rw [hpow] at hlt
  unfold literalValue
  split_ifs with h7
  · have hl := and_lit_lt c h7
    have hm := maxForClass_of_le h7
    generalize hL : (c &&& lit (prefixClass c)) = L at *
    have hprod : (L.toNat + 1) * 2 ^ (8 * prefixClass c) ≤ 2 ^ (7 - prefixClass c) * 2 ^ (8 * prefixClass c) :=
      Nat.mul_le_mul_right _ hl
    have hmax : maxForClass (prefixClass c) < 2 ^ 64 := by
      have := maxForClass_mono (show prefixClass c ≤ 8 by omega)
      norm_num [maxForClass] at this ⊢
      omega
    rw [Nat.add_mul, one_mul] at hprod
    have hv : (((L.setWidth 64) <<< (8 * prefixClass c)) ||| bigEndian bs).toNat =
        L.toNat * 2 ^ (8 * prefixClass c) + beNat bs := by
      have := L.isLt
      rw [BitVec.toNat_or, BitVec.toNat_shiftLeft, BitVec.toNat_setWidth, hbe,
        Nat.mod_eq_of_lt (a := L.toNat) (by omega), Nat.shiftLeft_eq, Nat.mod_eq_of_lt (by omega),
        ← Nat.shiftLeft_eq, ← Nat.shiftLeft_add_eq_or_of_lt hlt, Nat.shiftLeft_eq]
    rw [hv, ← hand, Nat.add_mul]
    omega
  · have hi : prefixClass c = 8 := by omega
    have hc : c.toNat = (pfx 8).toNat := by
      have h1 := prefixClass_bounds c
      rw [hi] at h1
      have e1 : (pfx 8).toNat = 255 := rfl
      have e2 : (thr 8).toNat = 255 := rfl
      omega
    rw [hbe, hi, hc]
    rw [hi] at hlt
    norm_num [maxForClass] at hlt ⊢
    omega

/-! ### The encoder's bytes -/

/-- What a class-i wire instruction is. -/
theorem wireInstr_some {i : Nat} {x : Value} {j : Instr} (h : wireInstr i x = some j) :
    i ≤ 8 ∧ (j.wellFormed = true ↔ x.toNat ≤ maxForClass i) := by
  unfold wireInstr at h
  split at h <;> simp only [Option.some.injEq, reduceCtorEq] at h <;> subst h <;>
    simp [Instr.wellFormed]

theorem wireInstr_isSome {i : Nat} (h : i ≤ 8) (x : Value) : ∃ j, wireInstr i x = some j := by
  interval_cases i <;> exact ⟨_, rfl⟩

theorem wireInstr_inj {i k : Nat} {x y : Value} {j : Instr} (h : wireInstr i x = some j)
    (h' : wireInstr k y = some j) : i = k ∧ x = y := by
  have hi := (wireInstr_some h).1
  have hk := (wireInstr_some h').1
  interval_cases i <;> interval_cases k <;> simp_all [wireInstr] <;> subst h <;> simp_all

/-- A field of x below a prefix, as a number. -/
theorem prefix_field_toNat {n m : Nat} (p : BitVec n) (x : Value) (k : Nat) :
    (p ++ x.extractLsb' k m).toNat = p.toNat * 2 ^ m + x.toNat / 2 ^ k % 2 ^ m := by
  rw [BitVec.toNat_append, BitVec.extractLsb'_toNat, Nat.shiftRight_eq_div_pow,
    ← Nat.shiftLeft_add_eq_or_of_lt (Nat.mod_lt _ (Nat.two_pow_pos m)), Nat.shiftLeft_eq]

theorem prefix_field_eq {n m : Nat} (p : BitVec n) (x : Value) (k : Nat) (b : BitVec (n + m))
    (h : p.toNat * 2 ^ m + x.toNat / 2 ^ k % 2 ^ m = b.toNat) : p ++ x.extractLsb' k m = b := by
  apply BitVec.eq_of_toNat_eq
  rw [prefix_field_toNat, h]

theorem field_eq (x : Value) (k : Nat) (b : Byte) (h : x.toNat / 2 ^ k % 256 = b.toNat) :
    x.extractLsb' k 8 = b := by
  apply BitVec.eq_of_toNat_eq
  rw [BitVec.extractLsb'_toNat, Nat.shiftRight_eq_div_pow, ← h]

/-- The layouts of R54 to R62 are the closed form of R64. -/
theorem encode_wire {i : Nat} {x : Value} {j : Instr} (h : wireInstr i x = some j) (hx : x.toNat ≤ maxForClass i) :
    encode j = .wire (beBytes (i + 1) ((pfx i).toNat * 2 ^ (8 * i) + x.toNat)) := by
  have hi := (wireInstr_some h).1
  have hlt := x.isLt
  interval_cases i <;> simp only [wireInstr, Option.some.injEq] at h <;> subst h <;>
    simp only [encode, beBytes, List.range_succ, List.range_zero, List.nil_append, List.cons_append, List.map_cons,
      List.map_nil, Encoded.wire.injEq, List.cons.injEq, and_true] <;>
    norm_num [maxForClass, pfx] at hx ⊢ <;>
    (repeat' apply And.intro) <;>
    first
      | (apply prefix_field_eq; simp only [BitVec.toNat_ofNat, BitVec.toNat_setWidth]; omega)
      | (apply field_eq; simp only [BitVec.toNat_ofNat]; omega)
      | (apply BitVec.eq_of_toNat_eq; simp only [BitVec.toNat_ofNat]; omega)

theorem byteOf_toNat (x : Value) (j : Nat) : (byteOf x j).toNat = x.toNat / 2 ^ (8 * j) % 256 := by
  rw [byteOf, BitVec.toNat_setWidth, BitVec.toNat_ushiftRight, Nat.shiftRight_eq_div_pow]

/-- R85's first byte is the prefix plus the top literal bits: the OR disturbs no prefix bit. -/
theorem firstByte_toNat (x : Value) :
    (firstByte x).toNat =
      ((pfx (classify x)).toNat * 2 ^ (8 * classify x) + x.toNat) / 2 ^ (8 * classify x) % 256 := by
  have hx := le_maxForClass_classify x
  have hc := classify_le x
  have key : ∀ c ≤ 7, ∀ a < 2 ^ (7 - c), (pfx c ||| BitVec.ofNat 8 a).toNat = (pfx c).toNat + a := by decide
  have hlt := x.isLt
  rw [Nat.mul_comm, Nat.mul_add_div (Nat.two_pow_pos _)]
  unfold firstByte
  split_ifs with h7
  · have hm := maxForClass_of_le h7
    have ha : x.toNat / 2 ^ (8 * classify x) < 2 ^ (7 - classify x) :=
      Nat.div_lt_of_lt_mul (by rw [Nat.mul_comm]; omega)
    have hb : byteOf x (classify x) = BitVec.ofNat 8 (x.toNat / 2 ^ (8 * classify x)) := by
      apply BitVec.eq_of_toNat_eq
      rw [byteOf_toNat, BitVec.toNat_ofNat]
    have hs := key _ h7 _ ha
    have := (pfx (classify x) ||| BitVec.ofNat 8 (x.toNat / 2 ^ (8 * classify x))).isLt
    rw [hb, hs, Nat.mod_eq_of_lt (by omega)]
  · rw [show classify x = 8 by omega, Nat.div_eq_of_lt (by norm_num; omega)]
    rfl

/-- R85's encode(x) is the closed form of R64. -/
theorem encodeValue_eq (x : Value) :
    encodeValue x = beBytes (classify x + 1) ((pfx (classify x)).toNat * 2 ^ (8 * classify x) + x.toNat) := by
  rw [encodeValue, beBytes, List.range_succ_eq_map, List.map_cons, List.map_map]
  congr 1
  · apply BitVec.eq_of_toNat_eq
    rw [firstByte_toNat, BitVec.toNat_ofNat]
    simp
  · refine List.map_congr_left fun k hk => BitVec.eq_of_toNat_eq ?_
    rw [List.mem_range] at hk
    obtain ⟨d, hd⟩ : ∃ d, classify x = d + (k + 1) := ⟨classify x - (k + 1), by omega⟩
    simp only [Function.comp_apply, byteOf_toNat, BitVec.toNat_ofNat, Nat.succ_eq_add_one]
    rw [show classify x - (k + 1) = d by omega, show classify x + 1 - 1 - (k + 1) = d by omega]
    rw [show 8 * classify x = 8 * d + 8 * k + 8 by omega, pow_add, pow_add,
      show (pfx (classify x)).toNat * (2 ^ (8 * d) * 2 ^ (8 * k) * 2 ^ 8) =
        2 ^ (8 * d) * ((pfx (classify x)).toNat * 2 ^ (8 * k) * 2 ^ 8) by ring,
      Nat.mul_add_div (Nat.two_pow_pos _)]
    omega

theorem encodeValue_length (x : Value) : (encodeValue x).length = classify x + 1 := by
  rw [encodeValue_eq, beBytes_length]

/-- encode(x) is the layout of x's own class. -/
theorem encode_classify {x : Value} {j : Instr} (h : wireInstr (classify x) x = some j) :
    encode j = .wire (encodeValue x) := by
  rw [encode_wire h (le_maxForClass_classify x), encodeValue_eq]

/-! ### Decoding what was encoded -/

/-- The number of a class-i encoding fits in i + 1 bytes, and its first byte has class i. -/
theorem beBytes_cons {i n : Nat} (hi : i ≤ 8) (hn : n ≤ maxForClass i) :
    (pfx i).toNat * 2 ^ (8 * i) + n < 256 ^ (i + 1) ∧
      ∃ c bs, beBytes (i + 1) ((pfx i).toNat * 2 ^ (8 * i) + n) = c :: bs ∧ bs.length = i ∧ prefixClass c = i := by
  have hpow : (256 : Nat) ^ i = 2 ^ (8 * i) := by rw [show (256 : Nat) = 2 ^ 8 from rfl, ← pow_mul]
  have hbound : n < ((thr i).toNat + 1 - (pfx i).toNat) * 2 ^ (8 * i) ∧ (thr i).toNat ≤ 255 ∧
      (pfx i).toNat ≤ (thr i).toNat := by
    interval_cases i <;> norm_num [maxForClass, thr, pfx] at hn ⊢ <;> omega
  obtain ⟨h1, h2, h3⟩ := hbound
  have hN : (pfx i).toNat * 2 ^ (8 * i) + n < ((thr i).toNat + 1) * 2 ^ (8 * i) := by
    obtain ⟨d, hd⟩ : ∃ d, (thr i).toNat + 1 = (pfx i).toNat + d := ⟨(thr i).toNat + 1 - (pfx i).toNat, by omega⟩
    rw [hd, Nat.add_sub_cancel_left] at h1
    rw [hd, Nat.add_mul]
    omega
  have hlt : (pfx i).toNat * 2 ^ (8 * i) + n < 256 ^ (i + 1) := by
    rw [pow_succ, hpow, Nat.mul_comm _ 256]
    exact hN.trans_le (Nat.mul_le_mul_right _ (by omega))
  refine ⟨hlt, ?_⟩
  have hlen := beBytes_length (i + 1) ((pfx i).toNat * 2 ^ (8 * i) + n)
  have hval := beNat_beBytes _ _ hlt
  obtain ⟨c, bs, hcb⟩ := List.exists_cons_of_length_eq_add_one hlen
  rw [hcb] at hlen hval
  have hbs : bs.length = i := by simpa using hlen
  refine ⟨c, bs, hcb, hbs, ?_⟩
  have hb := beNat_lt bs
  rw [beNat_cons] at hval
  rw [hbs, hpow] at hb hval
  refine prefixClass_eq_of_bounds i hi c ?_ ?_
  · by_contra hc
    have := Nat.mul_le_mul_right (2 ^ (8 * i)) (show c.toNat + 1 ≤ (pfx i).toNat by omega)
    rw [Nat.add_mul, one_mul] at this
    omega
  · by_contra hc
    have := Nat.mul_le_mul_right (2 ^ (8 * i)) (show (thr i).toNat + 1 ≤ c.toNat by omega)
    omega

/-- The bytes of a class-i encoding of x, split into the first and the literal ones: their value is x (R93). -/
theorem literalValue_beBytes {i : Nat} {x : Value} {c : Byte} {bs : List Byte} (hi : i ≤ 8)
    (hx : x.toNat ≤ maxForClass i) (hcb : beBytes (i + 1) ((pfx i).toNat * 2 ^ (8 * i) + x.toNat) = c :: bs) :
    bs.length = i ∧ prefixClass c = i ∧ literalValue i c bs = x := by
  obtain ⟨hlt, c', bs', hcb', hlen, hc⟩ := beBytes_cons hi hx
  obtain ⟨rfl, rfl⟩ : c = c' ∧ bs = bs' := by simpa [hcb] using hcb'
  refine ⟨hlen, hc, BitVec.eq_of_toNat_eq ?_⟩
  have hv := beNat_beBytes _ _ hlt
  rw [hcb] at hv
  have hl := (literalValue_toNat c bs (by omega)).1
  rw [hc] at hl
  omega

/-- decodeBytes undoes every class-i encoding, whatever follows (R92, R95). -/
theorem decodeBytes_beBytes {i : Nat} {x : Value} (hi : i ≤ 8) (hx : x.toNat ≤ maxForClass i) (rest : List Byte) :
    decodeBytes (beBytes (i + 1) ((pfx i).toNat * 2 ^ (8 * i) + x.toNat) ++ rest) = .ok x (i + 1) := by
  obtain ⟨-, c, bs, hcb, -, -⟩ := beBytes_cons hi hx
  obtain ⟨hlen, hc, hv⟩ := literalValue_beBytes hi hx hcb
  rw [hcb, List.cons_append, decodeBytes, hc, if_neg (by simp [hlen]), ← hlen, List.take_left', hlen, hv]
  rfl

/-- The wire decoder undoes every wire instruction's encoding, whatever follows. -/
theorem decodeWire_beBytes {i : Nat} {x : Value} {j : Instr} (h : wireInstr i x = some j)
    (hx : x.toNat ≤ maxForClass i) (rest : List Byte) :
    decodeWire (beBytes (i + 1) ((pfx i).toNat * 2 ^ (8 * i) + x.toNat) ++ rest) = .ok j rest := by
  have hi := (wireInstr_some h).1
  obtain ⟨-, c, bs, hcb, -, -⟩ := beBytes_cons hi hx
  obtain ⟨hlen, hc, hv⟩ := literalValue_beBytes hi hx hcb
  rw [hcb, List.cons_append, decodeWire, hc, if_neg (by simp [hlen])]
  rw [← hlen, List.take_left', List.drop_left', hlen, hv, h]
  · rfl
  · rfl

/-- Any first byte with as many bytes as its class asks for is the encoding of the value it decodes to. -/
theorem cons_eq_beBytes (c : Byte) (bs : List Byte) (h : bs.length = prefixClass c) :
    c :: bs = beBytes (prefixClass c + 1) ((pfx (prefixClass c)).toNat * 2 ^ (8 * prefixClass c) +
      (literalValue (prefixClass c) c bs).toNat) := by
  rw [Nat.add_comm (_ * _), (literalValue_toNat c bs h).1, ← h]
  exact (beBytes_beNat (c :: bs)).symm

end Sys2Proof.Machine
end

