-- ==== Sys2Proof/Laws/Operands.lean ====
section
/-! SUPPORT. The fields of a command word and of a response word are what was put there (spec/30_encoding.md R67, R71). -/

namespace Sys2Proof.Machine

/-- Concatenation as a number. -/
theorem append_toNat {n m : Nat} (p : BitVec n) (q : BitVec m) : (p ++ q).toNat = p.toNat * 2 ^ m + q.toNat := by
  rw [BitVec.toNat_append, ← Nat.shiftLeft_add_eq_or_of_lt q.isLt, Nat.shiftLeft_eq]

/-- The low part of a concatenation. -/
theorem extract_append_low {n m : Nat} (p : BitVec n) (q : BitVec m) : (p ++ q).extractLsb' 0 m = q := by
  apply BitVec.eq_of_toNat_eq
  have := q.isLt
  rw [BitVec.extractLsb'_toNat, append_toNat, Nat.shiftRight_zero, Nat.mul_add_mod_self_right, Nat.mod_eq_of_lt this]

/-- A field of the high part of a concatenation. -/
theorem extract_append_high {n m : Nat} (p : BitVec n) (q : BitVec m) (k w : Nat) :
    (p ++ q).extractLsb' (m + k) w = p.extractLsb' k w := by
  apply BitVec.eq_of_toNat_eq
  rw [BitVec.extractLsb'_toNat, BitVec.extractLsb'_toNat, append_toNat, Nat.shiftRight_add,
    Nat.shiftRight_eq_div_pow _ m, Nat.mul_comm, Nat.mul_add_div (Nat.two_pow_pos m), Nat.div_eq_of_lt q.isLt, Nat.add_zero]

@[simp] theorem extractLsb'_self {n : Nat} (p : BitVec n) : p.extractLsb' 0 n = p := by
  apply BitVec.eq_of_toNat_eq
  rw [BitVec.extractLsb'_toNat, Nat.shiftRight_zero, Nat.mod_eq_of_lt p.isLt]

@[simp] theorem opField_commandWord (op : Opcode) (a : Value) : opField (commandWord op a) = op := by
  have := extract_append_high op a 0 2
  simpa [opField, commandWord] using this

@[simp] theorem argField_commandWord (op : Opcode) (a : Value) : argField (commandWord op a) = a :=
  extract_append_low op a

/-- The command of a word, by its OP and ARG (R68, R69). -/
theorem decodeCommand_commandWord (op : Opcode) (a : Value) :
    decodeCommand (commandWord op a) =
      if op = 0b00#2 then .classify a
      else if op = 0b01#2 then .encode a
      else if op = 0b10#2 then .decode
      else .pclass (a.extractLsb' 0 8) := by
  simp only [decodeCommand, valueOperand, byteOperand, opField_commandWord, argField_commandWord]

@[simp] theorem toWord_value (r : Response) : r.toWord.extractLsb' 0 64 = r.value := extract_append_low _ _

@[simp] theorem toWord_count (r : Response) : r.toWord.extractLsb' 64 4 = r.count := by
  have := extract_append_high (r.status ++ r.cls ++ r.count) r.value 0 4
  rw [extract_append_low] at this
  exact this

@[simp] theorem toWord_cls (r : Response) : r.toWord.extractLsb' 68 4 = r.cls :=
  (extract_append_high (r.status ++ r.cls ++ r.count) r.value (4 + 0) 4).trans <|
    (extract_append_high (r.status ++ r.cls) r.count 0 4).trans (extract_append_low _ _)

@[simp] theorem toWord_status (r : Response) : r.toWord.extractLsb' 72 2 = r.status :=
  (extract_append_high (r.status ++ r.cls ++ r.count) r.value (4 + (4 + 0)) 2).trans <|
    (extract_append_high (r.status ++ r.cls) r.count (4 + 0) 2).trans <|
      (extract_append_high r.status r.cls 0 2).trans (extractLsb'_self _)

@[simp] theorem ofWord_toWord (r : Response) : Response.ofWord r.toWord = r := by
  simp only [Response.ofWord, toWord_value, toWord_count, toWord_cls, toWord_status]

@[simp] theorem toWord_ofWord (w : ResponseWord) : (Response.ofWord w).toWord = w := by
  apply BitVec.eq_of_toNat_eq
  have := w.isLt
  simp only [Response.toWord, Response.ofWord, append_toNat, BitVec.extractLsb'_toNat, Nat.shiftRight_eq_div_pow]
  omega

end Sys2Proof.Machine
end

