-- ==== Sys2Proof/Laws/State.lean ====
section
/-! SUPPORT. One lemma per field of State for each named update, so that no later proof unfolds a record update. -/

namespace Sys2Proof.Machine

/-! ### respond -/

@[simp] theorem respond_mode (st : Status) (c n : Nibble) (v : Value) (s : State) :
    (respond st c n v s).mode = s.mode := rfl

@[simp] theorem respond_data (st : Status) (c n : Nibble) (v : Value) (s : State) :
    (respond st c n v s).data = s.data := rfl

@[simp] theorem respond_cls (st : Status) (c n : Nibble) (v : Value) (s : State) :
    (respond st c n v s).cls = s.cls := rfl

@[simp] theorem respond_idx (st : Status) (c n : Nibble) (v : Value) (s : State) :
    (respond st c n v s).idx = s.idx := rfl

@[simp] theorem respond_resp (st : Status) (c n : Nibble) (v : Value) (s : State) :
    (respond st c n v s).resp = { status := st, cls := c, count := n, value := v } := rfl

@[simp] theorem respond_respValid (st : Status) (c n : Nibble) (v : Value) (s : State) :
    (respond st c n v s).respValid = true := rfl

@[simp] theorem respond_resetLine (st : Status) (c n : Nibble) (v : Value) (s : State) :
    (respond st c n v s).resetLine = s.resetLine := rfl

@[simp] theorem respond_cmdPort (st : Status) (c n : Nibble) (v : Value) (s : State) :
    (respond st c n v s).cmdPort = s.cmdPort := rfl

@[simp] theorem respond_hostTakes (st : Status) (c n : Nibble) (v : Value) (s : State) :
    (respond st c n v s).hostTakes = s.hostTakes := rfl

@[simp] theorem respond_taken (st : Status) (c n : Nibble) (v : Value) (s : State) :
    (respond st c n v s).taken = s.taken := rfl

@[simp] theorem respond_source (st : Status) (c n : Nibble) (v : Value) (s : State) :
    (respond st c n v s).source = s.source := rfl

@[simp] theorem respond_sink (st : Status) (c n : Nibble) (v : Value) (s : State) :
    (respond st c n v s).sink = s.sink := rfl

@[simp] theorem respond_freeCount (st : Status) (c n : Nibble) (v : Value) (s : State) :
    (respond st c n v s).freeCount = s.freeCount := rfl

/-! ### raise -/

@[simp] theorem raise_mode (e : ErrorKind) (c : Nibble) (s : State) :
    (raise e c s).mode = .idle := rfl

@[simp] theorem raise_data (e : ErrorKind) (c : Nibble) (s : State) :
    (raise e c s).data = s.data := rfl

@[simp] theorem raise_cls (e : ErrorKind) (c : Nibble) (s : State) :
    (raise e c s).cls = s.cls := rfl

@[simp] theorem raise_idx (e : ErrorKind) (c : Nibble) (s : State) :
    (raise e c s).idx = s.idx := rfl

@[simp] theorem raise_resp (e : ErrorKind) (c : Nibble) (s : State) :
    (raise e c s).resp = { status := e.status, cls := c, count := s.idx, value := 0#64 } := rfl

@[simp] theorem raise_respValid (e : ErrorKind) (c : Nibble) (s : State) :
    (raise e c s).respValid = true := rfl

@[simp] theorem raise_resetLine (e : ErrorKind) (c : Nibble) (s : State) :
    (raise e c s).resetLine = s.resetLine := rfl

@[simp] theorem raise_cmdPort (e : ErrorKind) (c : Nibble) (s : State) :
    (raise e c s).cmdPort = s.cmdPort := rfl

@[simp] theorem raise_hostTakes (e : ErrorKind) (c : Nibble) (s : State) :
    (raise e c s).hostTakes = s.hostTakes := rfl

@[simp] theorem raise_taken (e : ErrorKind) (c : Nibble) (s : State) :
    (raise e c s).taken = s.taken := rfl

@[simp] theorem raise_source (e : ErrorKind) (c : Nibble) (s : State) :
    (raise e c s).source = s.source := rfl

@[simp] theorem raise_sink (e : ErrorKind) (c : Nibble) (s : State) :
    (raise e c s).sink = s.sink := rfl

@[simp] theorem raise_freeCount (e : ErrorKind) (c : Nibble) (s : State) :
    (raise e c s).freeCount = s.freeCount := rfl

/-! ### applyReset -/

@[simp] theorem applyReset_mode (s : State) :
    (applyReset s).mode = .idle := rfl

@[simp] theorem applyReset_data (s : State) :
    (applyReset s).data = Config.resetData s.freeCount := rfl

@[simp] theorem applyReset_cls (s : State) :
    (applyReset s).cls = Config.resetCls s.freeCount := rfl

@[simp] theorem applyReset_idx (s : State) :
    (applyReset s).idx = Config.resetIdx s.freeCount := rfl

@[simp] theorem applyReset_resp (s : State) :
    (applyReset s).resp = Response.ofWord (Config.resetResp s.freeCount) := rfl

@[simp] theorem applyReset_respValid (s : State) :
    (applyReset s).respValid = false := rfl

@[simp] theorem applyReset_resetLine (s : State) :
    (applyReset s).resetLine = s.resetLine := rfl

@[simp] theorem applyReset_cmdPort (s : State) :
    (applyReset s).cmdPort = s.cmdPort := rfl

@[simp] theorem applyReset_hostTakes (s : State) :
    (applyReset s).hostTakes = s.hostTakes := rfl

@[simp] theorem applyReset_taken (s : State) :
    (applyReset s).taken = s.taken := rfl

@[simp] theorem applyReset_source (s : State) :
    (applyReset s).source = s.source := rfl

@[simp] theorem applyReset_sink (s : State) :
    (applyReset s).sink = s.sink := rfl

@[simp] theorem applyReset_freeCount (s : State) :
    (applyReset s).freeCount = s.freeCount + 1 := rfl

/-! ### respondClass -/

@[simp] theorem respondClass_mode (i : Nat) (s : State) :
    (respondClass i s).mode = s.mode := rfl

@[simp] theorem respondClass_data (i : Nat) (s : State) :
    (respondClass i s).data = s.data := rfl

@[simp] theorem respondClass_cls (i : Nat) (s : State) :
    (respondClass i s).cls = s.cls := rfl

@[simp] theorem respondClass_idx (i : Nat) (s : State) :
    (respondClass i s).idx = s.idx := rfl

@[simp] theorem respondClass_resp (i : Nat) (s : State) :
    (respondClass i s).resp = { status := statusOk, cls := BitVec.ofNat 4 i, count := BitVec.ofNat 4 (i + 1), value := 0#64 } := rfl

@[simp] theorem respondClass_respValid (i : Nat) (s : State) :
    (respondClass i s).respValid = true := rfl

@[simp] theorem respondClass_resetLine (i : Nat) (s : State) :
    (respondClass i s).resetLine = s.resetLine := rfl

@[simp] theorem respondClass_cmdPort (i : Nat) (s : State) :
    (respondClass i s).cmdPort = s.cmdPort := rfl

@[simp] theorem respondClass_hostTakes (i : Nat) (s : State) :
    (respondClass i s).hostTakes = s.hostTakes := rfl

@[simp] theorem respondClass_taken (i : Nat) (s : State) :
    (respondClass i s).taken = s.taken := rfl

@[simp] theorem respondClass_source (i : Nat) (s : State) :
    (respondClass i s).source = s.source := rfl

@[simp] theorem respondClass_sink (i : Nat) (s : State) :
    (respondClass i s).sink = s.sink := rfl

@[simp] theorem respondClass_freeCount (i : Nat) (s : State) :
    (respondClass i s).freeCount = s.freeCount := rfl

/-! ### completeWire -/

@[simp] theorem completeWire_mode (i : Nat) (x : Value) (s : State) :
    (completeWire i x s).mode = .idle := rfl

@[simp] theorem completeWire_data (i : Nat) (x : Value) (s : State) :
    (completeWire i x s).data = x := rfl

@[simp] theorem completeWire_cls (i : Nat) (x : Value) (s : State) :
    (completeWire i x s).cls = BitVec.ofNat 4 i := rfl

@[simp] theorem completeWire_idx (i : Nat) (x : Value) (s : State) :
    (completeWire i x s).idx = BitVec.ofNat 4 (i + 1) := rfl

@[simp] theorem completeWire_resp (i : Nat) (x : Value) (s : State) :
    (completeWire i x s).resp = { status := statusOk, cls := BitVec.ofNat 4 i, count := BitVec.ofNat 4 (i + 1), value := x } := rfl

@[simp] theorem completeWire_respValid (i : Nat) (x : Value) (s : State) :
    (completeWire i x s).respValid = true := rfl

@[simp] theorem completeWire_resetLine (i : Nat) (x : Value) (s : State) :
    (completeWire i x s).resetLine = s.resetLine := rfl

@[simp] theorem completeWire_cmdPort (i : Nat) (x : Value) (s : State) :
    (completeWire i x s).cmdPort = s.cmdPort := rfl

@[simp] theorem completeWire_hostTakes (i : Nat) (x : Value) (s : State) :
    (completeWire i x s).hostTakes = s.hostTakes := rfl

@[simp] theorem completeWire_taken (i : Nat) (x : Value) (s : State) :
    (completeWire i x s).taken = s.taken := rfl

@[simp] theorem completeWire_source (i : Nat) (x : Value) (s : State) :
    (completeWire i x s).source = s.source := rfl

@[simp] theorem completeWire_sink (i : Nat) (x : Value) (s : State) :
    (completeWire i x s).sink = s.sink := rfl

@[simp] theorem completeWire_freeCount (i : Nat) (x : Value) (s : State) :
    (completeWire i x s).freeCount = s.freeCount := rfl

/-! ### afterLevels -/

@[simp] theorem afterLevels_mode (n : Nat) (s : State) :
    (afterLevels n s).mode = s.mode := rfl

@[simp] theorem afterLevels_data (n : Nat) (s : State) :
    (afterLevels n s).data = s.data := rfl

@[simp] theorem afterLevels_cls (n : Nat) (s : State) :
    (afterLevels n s).cls = s.cls := rfl

@[simp] theorem afterLevels_idx (n : Nat) (s : State) :
    (afterLevels n s).idx = s.idx := rfl

@[simp] theorem afterLevels_resp (n : Nat) (s : State) :
    (afterLevels n s).resp = s.resp := rfl

@[simp] theorem afterLevels_respValid (n : Nat) (s : State) :
    (afterLevels n s).respValid = s.respValid := rfl

@[simp] theorem afterLevels_resetLine (n : Nat) (s : State) :
    (afterLevels n s).resetLine = s.resetLine.drop n := rfl

@[simp] theorem afterLevels_cmdPort (n : Nat) (s : State) :
    (afterLevels n s).cmdPort = s.cmdPort := rfl

@[simp] theorem afterLevels_hostTakes (n : Nat) (s : State) :
    (afterLevels n s).hostTakes = s.hostTakes := rfl

@[simp] theorem afterLevels_taken (n : Nat) (s : State) :
    (afterLevels n s).taken = s.taken := rfl

@[simp] theorem afterLevels_source (n : Nat) (s : State) :
    (afterLevels n s).source = s.source := rfl

@[simp] theorem afterLevels_sink (n : Nat) (s : State) :
    (afterLevels n s).sink = s.sink := rfl

@[simp] theorem afterLevels_freeCount (n : Nat) (s : State) :
    (afterLevels n s).freeCount = s.freeCount := rfl

end Sys2Proof.Machine
end

