-- ==== Sys2Proof/Laws/Ops.lean ====
section
/-! SUPPORT. For each shared operation, once, everything it can do: the transfer primitives, the two transfer steps, the
host's take, acceptance, and the step itself with reset low. -/

namespace Sys2Proof.Machine

@[simp] theorem statusOk_eq : statusOk = 0b00#2 := rfl
@[simp] theorem statusTruncated_eq : statusTruncated = 0b01#2 := rfl
@[simp] theorem statusIoError_eq : statusIoError = 0b10#2 := rfl
@[simp] theorem statusNever_eq : statusNever = 0b11#2 := rfl
@[simp] theorem ErrorKind.status_truncated : ErrorKind.truncated.status = 0b01#2 := rfl
@[simp] theorem ErrorKind.status_ioError : ErrorKind.ioError.status = 0b10#2 := rfl

theorem cmdReady_iff (s : State) : cmdReady s = true ↔ s.mode = .idle ∧ s.respValid = false := by
  simp [cmdReady]

/-! ### The transfer primitives -/

/-- Everything a read does when the source answers: one answer is used up, and a byte answered is consumed. -/
theorem srcRead_cases (s : State) :
    (s.source = none ∧ srcRead s = .unattached) ∨
      (∃ consumed, s.source = some { answers := [], consumed := consumed } ∧ srcRead s = .holds) ∨
      ∃ a rest consumed, s.source = some { answers := a :: rest, consumed := consumed } ∧
        ((∃ b, a = .byte b ∧
            srcRead s = .byte b { s with source := some { answers := rest, consumed := consumed ++ [b] } }) ∨
          (a = .exhausted ∧
            srcRead s = .exhausted { s with source := some { answers := rest, consumed := consumed } }) ∨
          (a = .ioFail ∧
            srcRead s = .ioFail { s with source := some { answers := rest, consumed := consumed } })) := by
  unfold srcRead
  rcases hs : s.source with _ | ⟨answers, consumed⟩
  · simp
  · rcases answers with _ | ⟨a, rest⟩
    · exact .inr (.inl ⟨consumed, rfl, rfl⟩)
    · refine .inr (.inr ⟨a, rest, consumed, rfl, ?_⟩)
      cases a <;> simp

/-- Everything a write does when the sink answers: one answer is used up, and bytes are only added. -/
theorem sinkWrite_cases (b : Byte) (s : State) :
    (s.sink = none ∧ sinkWrite b s = .unattached) ∨
      (∃ held, s.sink = some { held := held, answers := [] } ∧ sinkWrite b s = .holds) ∨
      ∃ a rest held, s.sink = some { held := held, answers := a :: rest } ∧
        ((a = .ok ∧ sinkWrite b s = .ok { s with sink := some { held := held ++ [b], answers := rest } }) ∨
          ∃ left, a = .ioFail left ∧
            sinkWrite b s = .ioFail { s with sink := some { held := held ++ left, answers := rest } }) := by
  unfold sinkWrite
  rcases hs : s.sink with _ | ⟨held, answers⟩
  · simp
  · rcases answers with _ | ⟨a, rest⟩
    · exact .inr (.inl ⟨held, rfl, rfl⟩)
    · refine .inr (.inr ⟨a, rest, held, rfl, ?_⟩)
      cases a <;> simp

/-- Everything the host's take can do (R25, I13). -/
theorem hostTake_cases (s : State) :
    (s.hostTakes = 0 ∧ hostTake s = .wait .waitTake) ∨
      ∃ n, s.hostTakes = n + 1 ∧
        ((s.resp.status = statusNever ∧ hostTake s = .stop .statusNeverProduced) ∨
          (s.resp.status ≠ statusNever ∧
            hostTake s = .done { s with respValid := false, hostTakes := n, taken := s.taken ++ [s.resp] })) := by
  unfold hostTake
  rcases hn : s.hostTakes with _ | n
  · exact .inl ⟨rfl, rfl⟩
  · by_cases hst : s.resp.status = statusNever
    · exact .inr ⟨n, rfl, .inl ⟨hst, if_pos hst⟩⟩
    · exact .inr ⟨n, rfl, .inr ⟨hst, if_neg hst⟩⟩

/-! ### The reset line -/

theorem resetLow_succ {n : Nat} {s : State} (h : ResetLow (n + 1) s) :
    ResetLow 1 s ∧ ResetLow n (afterLevels 1 s) := by
  rcases hl : s.resetLine with _ | ⟨b, l⟩ <;> simp_all [ResetLow]

theorem resetLow_mono {m n : Nat} {s : State} (h : ResetLow n s) (hmn : m ≤ n) : ResetLow m s := fun b hb =>
  h b (List.take_subset_take_left _ hmn hb)

@[simp] theorem afterLevels_afterLevels (m n : Nat) (s : State) :
    afterLevels n (afterLevels m s) = afterLevels (m + n) s := by
  simp [afterLevels, List.drop_drop]

@[simp] theorem afterLevels_zero (s : State) : afterLevels 0 s = s := rfl

/-- A step with reset low: the block's move at the state with the line moved on. A hold is no step once the line stays low
for good; before that only the line moves on. -/
theorem step_of_low {s : State} (h : ResetLow 1 s) :
    step s =
      match blockMove (afterLevels 1 s) with
      | .run i t => exec i t
      | .done t => .next t
      | .wait f => if s.resetLine = [] then .fault f else .next (afterLevels 1 s)
      | .stop f => .fault f
      | .refuse r => .refused r := by
  rcases hl : s.resetLine with _ | ⟨b, l⟩
  · have : afterLevels 1 s = s := by
      have : s = { s with resetLine := [] } := by rw [← hl]
      rw [afterLevels, hl, this]
      rfl
    simp only [step, nextMove, hl, this]
    cases blockMove s <;> rfl
  · have hb : b = false := by simpa [ResetLow, hl] using h
    subst hb
    have : afterLevels 1 s = { s with resetLine := l } := by simp [afterLevels, hl]
    simp only [step, nextMove, hl, this, Move.orTime]
    cases blockMove { s with resetLine := l } <;> simp

/-- A step with reset asserted. -/
theorem step_of_reset {s : State} {line : List Bool} (h : s.resetLine = true :: line) :
    step s = .next (applyReset { s with resetLine := line }) := by
  simp [step, nextMove, h]

/-- Reset is either asserted at the next step or low. -/
theorem reset_or_low (s : State) : (∃ line, s.resetLine = true :: line) ∨ ResetLow 1 s := by
  rcases hl : s.resetLine with _ | ⟨_ | _, l⟩ <;> simp [ResetLow, hl]

/-! ### The moves -/

theorem blockMove_enc {s : State} (h : s.mode = .enc) : blockMove s = encodeStep s := by simp [blockMove, h]

theorem blockMove_dec {s : State} (h : s.mode = .dec) : blockMove s = decodeStep s := by simp [blockMove, h]

theorem blockMove_ready {s : State} (h : cmdReady s = true) : blockMove s = acceptCommand s := by
  obtain ⟨hm, hv⟩ := (cmdReady_iff s).mp h
  simp [blockMove, hm, hv]

theorem blockMove_take {s : State} (hm : s.mode = .idle) (hv : s.respValid = true) : blockMove s = hostTake s := by
  simp [blockMove, hm, hv]

/-! ### Meanings -/

/-- What a wire instruction's run does, for all nine at once. -/
theorem exec_wire {i : Nat} {x : Value} {j : Instr} (h : wireInstr i x = some j) (s : State) :
    exec j s = .next (completeWire i x s) := by
  have hi := (wireInstr_some h).1
  interval_cases i <;> simp only [wireInstr, Option.some.injEq] at h <;> subst h <;> rfl

/-- When a meaning answers a next state, it is one of these. -/
theorem exec_cases (i : Instr) (s : State) :
    (∃ c, c ≤ 8 ∧ exec i s = .next (respondClass c s)) ∨
      (∃ x, i = .encode x ∧ s.sink = none ∧ exec i s = .refused .noSinkAttached) ∨
      (∃ x, i = .encode x ∧ s.sink.isSome = true ∧
        exec i s = .next { s with data := x, cls := BitVec.ofNat 4 (classify x), idx := 0#4, mode := .enc }) ∨
      (i = .decode ∧ s.source = none ∧ exec i s = .refused .noSourceAttached) ∨
      (i = .decode ∧ s.source.isSome = true ∧ exec i s = .next { s with idx := 0#4, mode := .dec }) ∨
      ∃ k x, k ≤ 8 ∧ wireInstr k x = some i ∧ exec i s = .next (completeWire k x s) := by
  cases i with
  | classify x => exact .inl ⟨_, classify_le x, rfl⟩
  | pclass c => exact .inl ⟨_, prefixClass_le c, rfl⟩
  | encode x =>
    rcases hs : s.sink with _ | k
    · exact .inr (.inl ⟨x, rfl, rfl, by simp [exec, execEncode, hs]⟩)
    · exact .inr (.inr (.inl ⟨x, rfl, rfl, by simp [exec, execEncode, hs]⟩))
  | decode =>
    rcases hs : s.source with _ | q
    · exact .inr (.inr (.inr (.inl ⟨rfl, rfl, by simp [exec, execDecode, hs]⟩)))
    · exact .inr (.inr (.inr (.inr (.inl ⟨rfl, rfl, by simp [exec, execDecode, hs]⟩))))
  | vliC0 x => exact .inr (.inr (.inr (.inr (.inr ⟨0, x, by omega, rfl, rfl⟩))))
  | vliC1 x => exact .inr (.inr (.inr (.inr (.inr ⟨1, x, by omega, rfl, rfl⟩))))
  | vliC2 x => exact .inr (.inr (.inr (.inr (.inr ⟨2, x, by omega, rfl, rfl⟩))))
  | vliC3 x => exact .inr (.inr (.inr (.inr (.inr ⟨3, x, by omega, rfl, rfl⟩))))
  | vliC4 x => exact .inr (.inr (.inr (.inr (.inr ⟨4, x, by omega, rfl, rfl⟩))))
  | vliC5 x => exact .inr (.inr (.inr (.inr (.inr ⟨5, x, by omega, rfl, rfl⟩))))
  | vliC6 x => exact .inr (.inr (.inr (.inr (.inr ⟨6, x, by omega, rfl, rfl⟩))))
  | vliC7 x => exact .inr (.inr (.inr (.inr (.inr ⟨7, x, by omega, rfl, rfl⟩))))
  | vliC8 x => exact .inr (.inr (.inr (.inr (.inr ⟨8, x, by omega, rfl, rfl⟩))))

/-! ### Runs -/

@[simp] theorem run_zero (s : State) : run 0 s = .next s := rfl

theorem run_succ {s t : State} (n : Nat) (h : step s = .next t) : run (n + 1) s = run n t := by simp [run, h]

theorem run_add (m n : Nat) (s : State) :
    run (m + n) s =
      match run m s with
      | .next t => run n t
      | .fault f => .fault f
      | .refused r => .refused r := by
  induction m generalizing s with
  | zero => simp
  | succ m ih =>
    rw [show m + 1 + n = m + n + 1 by omega]
    simp only [run]
    cases step s with
    | next t => simp only [ih]
    | fault f => rfl
    | refused r => rfl

/-- A run is the host's run of the core. -/
theorem run_eq_core (n : Nat) (s : State) : run n s = Sys2Proof.core.run n s := by
  induction n generalizing s with
  | zero => rfl
  | succ n ih =>
    cases h : step s with
    | next t =>
      have h' : Sys2Proof.core.step s = .next t := h
      simp only [run, Host.Core.run, h, h']
      exact ih t
    | fault f =>
      have h' : Sys2Proof.core.step s = .fault f := h
      simp only [run, Host.Core.run, h, h']
      rfl
    | refused r =>
      have h' : Sys2Proof.core.step s = .refused r := h
      simp only [run, Host.Core.run, h, h']
      rfl

end Sys2Proof.Machine
end

