-- ==== Sys2Proof/Laws/PerInstr.lean ====
section
/-! SUPPORT. What is said of every instruction as syntax, one lemma per constructor. EncodedSize: an encoding has the size
that spec/opcode_table.json gives its row, 66 bits for a command (spec/30_encoding.md R67) and i + 1 bytes for VLI.Ci
(R50). -/

namespace Sys2Proof.Laws.EncodedSize

/-- The size of each row of the opcode table, in bits. -/
def tableBits : Instr → Nat
  | .classify _ => 66
  | .encode _ => 66
  | .decode => 66
  | .pclass _ => 66
  | .vliC0 _ => 8
  | .vliC1 _ => 16
  | .vliC2 _ => 24
  | .vliC3 _ => 32
  | .vliC4 _ => 40
  | .vliC5 _ => 48
  | .vliC6 _ => 56
  | .vliC7 _ => 64
  | .vliC8 _ => 72

/-- The encoder gives an instruction its row's size. -/
def Statement (i : Instr) : Prop := (encode i).width = tableBits i

theorem classify (x : BitVec 64) : Statement (.classify x) := rfl
theorem encode (x : BitVec 64) : Statement (.encode x) := rfl
theorem decode : Statement .decode := rfl
theorem pclass (c : BitVec 8) : Statement (.pclass c) := rfl
theorem vliC0 (x : BitVec 64) : Statement (.vliC0 x) := rfl
theorem vliC1 (x : BitVec 64) : Statement (.vliC1 x) := rfl
theorem vliC2 (x : BitVec 64) : Statement (.vliC2 x) := rfl
theorem vliC3 (x : BitVec 64) : Statement (.vliC3 x) := rfl
theorem vliC4 (x : BitVec 64) : Statement (.vliC4 x) := rfl
theorem vliC5 (x : BitVec 64) : Statement (.vliC5 x) := rfl
theorem vliC6 (x : BitVec 64) : Statement (.vliC6 x) := rfl
theorem vliC7 (x : BitVec 64) : Statement (.vliC7 x) := rfl
theorem vliC8 (x : BitVec 64) : Statement (.vliC8 x) := rfl

end Sys2Proof.Laws.EncodedSize
end

