-- ==== Sys2Proof/Laws/Transfers.lean ====
section
/-! SUPPORT. The transfer steps of a command in progress with reset low, and several of them in a row: what an ENCODE's
writes and a DECODE's reads do together (spec/41_encoder.md R90, spec/42_decoder.md R99). -/

namespace Sys2Proof.Machine

theorem ofNat_toNat_succ (k : Nibble) : BitVec.ofNat 4 (k.toNat + 1) = k + 1#4 := by
  apply BitVec.eq_of_toNat_eq
  simp

/-- The write step, for either answer of the sink (R90). -/
theorem step_enc {s : State} {held : List Byte} {answers : List SinkAnswer} {b : Byte} {a : SinkAnswer}
    (hm : s.mode = .enc) (hl : ResetLow 1 s) (hb : (encodeValue s.data)[s.idx.toNat]? = some b)
    (hs : s.sink = some { held := held, answers := a :: answers }) :
    step s = .next (match a with
      | .ok => afterWrite { afterLevels 1 s with sink := some { held := held ++ [b], answers := answers } }
      | .ioFail left =>
        raise .ioError s.cls { afterLevels 1 s with sink := some { held := held ++ left, answers := answers } }) := by
  rw [step_of_low hl, blockMove_enc (by simpa using hm)]
  simp only [encodeStep, afterLevels_data, afterLevels_idx, hb, sinkWrite, afterLevels_sink, hs]
  cases a <;> rfl

/-- An ENCODE in progress has a byte to write. -/
theorem encode_byte {s : State} (hp : EncodeInProgress s) : ∃ b, (encodeValue s.data)[s.idx.toNat]? = some b := by
  obtain ⟨hc, hi, -⟩ := hp
  exact ⟨_, List.getElem?_eq_getElem (by rw [encodeValue_length]; omega)⟩

/-- The read step that fails (R99, R106). -/
theorem step_dec_fail {s : State} {answers : List SrcAnswer} {consumed : List Byte} {a : SrcAnswer} {e : ErrorKind}
    (hm : s.mode = .dec) (hl : ResetLow 1 s) (ha : (a = .exhausted ∧ e = .truncated) ∨ (a = .ioFail ∧ e = .ioError))
    (hs : s.source = some { answers := a :: answers, consumed := consumed }) :
    step s = .next (raise e (errorClass s)
      { afterLevels 1 s with source := some { answers := answers, consumed := consumed } }) := by
  rw [step_of_low hl, blockMove_dec (by simpa using hm)]
  rcases ha with ⟨rfl, rfl⟩ | ⟨rfl, rfl⟩ <;> simp only [decodeStep, srcRead, afterLevels_source, hs] <;> rfl

/-- The class after a read is legal in a DECODE in progress. -/
theorem readClass_le {s : State} (hp : DecodeInProgress s) (b : Byte) : readClass b s ≤ 8 := by
  unfold readClass
  split_ifs with h
  · exact prefixClass_le b
  · exact (hp.2 h).2.1

/-- What a byte read does, said for the state once it has been consumed. -/
theorem afterRead_cases {t : State} {b : Byte} (hc : readClass b t ≤ 8) :
    (t.idx.toNat = readClass b t ∧ ∃ j, wireInstr (readClass b t) (readData b t) = some j ∧
        afterRead b t = .run j t) ∨
      (t.idx.toNat ≠ readClass b t ∧
        afterRead b t =
          .done { t with cls := BitVec.ofNat 4 (readClass b t), data := readData b t, idx := t.idx + 1#4 }) := by
  by_cases h : t.idx.toNat = readClass b t
  · obtain ⟨j, hj⟩ := wireInstr_isSome hc (readData b t)
    exact .inl ⟨h, j, hj, by rw [afterRead, if_pos (by omega), hj]⟩
  · exact .inr ⟨h, by rw [afterRead, if_neg (by omega)]⟩

/-- The read step that brings a byte (R99), at the state u once it has been consumed. -/
theorem step_dec_byte {s u : State} {answers : List SrcAnswer} {consumed : List Byte} {b : Byte} (hm : s.mode = .dec)
    (hc : readClass b s ≤ 8) (hl : ResetLow 1 s)
    (hs : s.source = some { answers := .byte b :: answers, consumed := consumed })
    (hu : u = { afterLevels 1 s with source := some { answers := answers, consumed := consumed ++ [b] } }) :
    step s = .next (
      if s.idx.toNat = readClass b s then completeWire (readClass b s) (readData b s) u
      else { u with cls := BitVec.ofNat 4 (readClass b s), data := readData b s, idx := s.idx + 1#4 }) := by
  have hread : srcRead (afterLevels 1 s) = .byte b u := by simp only [srcRead, afterLevels_source, hs, hu]
  have h1 : readClass b u = readClass b s := by rw [hu]; rfl
  have h2 : readData b u = readData b s := by rw [hu]; rfl
  have h3 : u.idx = s.idx := by rw [hu]; rfl
  rw [step_of_low hl, blockMove_dec (by simpa using hm), decodeStep, hread]
  simp only
  rcases afterRead_cases (t := u) (b := b) (by omega) with ⟨h, j, hj, hr⟩ | ⟨h, hr⟩
  · rw [h1, h2] at hj
    rw [h1, h3] at h
    rw [hr, if_pos h]
    exact exec_wire hj u
  · rw [h1, h3] at h
    rw [hr, if_neg h, h1, h2, h3]

/-- A write answered Ok that is not the last only counts. -/
theorem afterWrite_of_ne {t : State} (h : t.idx.toNat ≠ t.cls.toNat) : afterWrite t = { t with idx := t.idx + 1#4 } := by
  rw [afterWrite, if_neg (by omega)]

/-- m writes answered Ok, short of the last (R90). -/
theorem run_writes (x : Value) : ∀ (m k : Nat) (s : State) (held : List Byte) (answers : List SinkAnswer),
    s.mode = .enc → s.data = x → s.cls = BitVec.ofNat 4 (classify x) → s.idx = BitVec.ofNat 4 k →
    k + m ≤ classify x → s.sink = some { held := held, answers := List.replicate m .ok ++ answers } → ResetLow m s →
    run m s = .next { afterLevels m s with
      idx := BitVec.ofNat 4 (k + m)
      sink := some { held := held ++ ((encodeValue x).drop k).take m, answers := answers } } := by
  intro m
  induction m with
  | zero =>
    intro k s held answers _ _ _ hi _ hs _
    simp only [List.replicate_zero, List.nil_append] at hs
    simp only [run_zero, afterLevels_zero, Nat.add_zero, List.take_zero, List.append_nil, ← hi, ← hs]
  | succ m ih =>
    intro k s held answers hm hd hc hi hk hs hl
    have hc8 := classify_le x
    obtain ⟨h1, hrest⟩ := resetLow_succ hl
    have hkn : s.idx.toNat = k := by rw [hi, BitVec.toNat_ofNat]; omega
    have hcn : s.cls.toNat = classify x := by rw [hc, BitVec.toNat_ofNat]; omega
    have hlen : k < (encodeValue x).length := by rw [encodeValue_length]; omega
    have hb : (encodeValue s.data)[s.idx.toNat]? = some (encodeValue x)[k] := by
      rw [hd, hkn, List.getElem?_eq_getElem hlen]
    rw [List.replicate_succ, List.cons_append] at hs
    rw [run_succ m (step_enc hm h1 hb hs)]
    simp only
    rw [afterWrite_of_ne]
    · refine Eq.trans (ih (k + 1) _ (held ++ [(encodeValue x)[k]]) answers ?_ ?_ ?_ ?_ ?_ ?_ ?_) ?_
      · exact hm
      · exact hd
      · exact hc
      · show s.idx + 1#4 = _
        rw [hi]
        apply BitVec.eq_of_toNat_eq
        simp
      · omega
      · rfl
      · exact hrest
      · rw [show k + 1 + m = k + (m + 1) by omega, List.drop_eq_getElem_cons hlen, List.take_succ_cons]
        simp only [afterLevels, List.drop_drop, List.append_assoc, List.cons_append, List.nil_append, Nat.add_comm 1 m]
    · show s.idx.toNat ≠ s.cls.toNat
      omega

/-- The state once a DECODE has read the bytes c :: bs of a class-i encoding, not all of them. -/
def midRead (c : Byte) (bs : List Byte) (answers : List SrcAnswer) (consumed : List Byte) (s : State) : State :=
  { afterLevels (bs.length + 1) s with
    cls := BitVec.ofNat 4 (prefixClass c)
    data := bs.foldl pushByte ((c &&& lit (prefixClass c)).setWidth 64)
    idx := BitVec.ofNat 4 (bs.length + 1)
    source := some { answers := answers, consumed := consumed ++ c :: bs } }

/-- Reads answered Byte, short of the last: the literal bits accumulate (R99). -/
theorem run_reads (c : Byte) : ∀ (bs : List Byte) (s : State) (answers : List SrcAnswer) (consumed : List Byte),
    bs.length < prefixClass c → s.mode = .dec → s.idx = 0#4 →
    s.source = some { answers := (c :: bs).map .byte ++ answers, consumed := consumed } →
    ResetLow (bs.length + 1) s →
    run (bs.length + 1) s = .next (midRead c bs answers consumed s) := by
  have hc8 := prefixClass_le c
  intro bs
  induction bs using List.reverseRecOn with
  | nil =>
    intro s answers consumed hb hm hi hs hl
    simp only [List.length_nil] at hb
    have hrc : readClass c s = prefixClass c := by simp [readClass, hi]
    rw [List.length_nil, run_succ 0 (step_dec_byte hm (by omega) (resetLow_succ hl).1 hs rfl), run_zero, hrc,
      if_neg (by rw [hi]; simp; omega)]
    simp [midRead, readData, hi]
  | append_singleton bs b ih =>
    intro s answers consumed hb hm hi hs hl
    simp only [List.length_append, List.length_singleton] at hb hl ⊢
    have hs' : s.source = some { answers := (c :: bs).map .byte ++ .byte b :: answers, consumed := consumed } := by
      simpa using hs
    have hlow : ResetLow 1 (midRead c bs (.byte b :: answers) consumed s) := by
      intro y hy
      refine hl y ?_
      simp only [midRead, afterLevels] at hy
      have h' := List.mem_of_mem_take hy
      rcases hdr : s.resetLine.drop (bs.length + 1) with _ | ⟨z, zs⟩
      · simp [hdr] at hy
      · rw [hdr] at hy
        have hyz : y = z := by simpa using hy
        have hlt : bs.length + 1 < s.resetLine.length := by
          by_contra hge
          rw [List.drop_eq_nil_of_le (by omega)] at hdr
          cases hdr
        have hz : s.resetLine[bs.length + 1] = z := by
          rw [List.drop_eq_getElem_cons hlt] at hdr
          exact (List.cons.inj hdr).1
        rw [hyz, ← hz]
        exact List.mem_take_iff_getElem.mpr ⟨bs.length + 1, by omega, rfl⟩
    have hidx : (midRead c bs (.byte b :: answers) consumed s).idx.toNat = bs.length + 1 := by
      simp only [midRead, BitVec.toNat_ofNat]
      omega
    have hne : (midRead c bs (.byte b :: answers) consumed s).idx ≠ 0#4 := by
      intro h
      rw [h] at hidx
      simp at hidx
    have hrc : readClass b (midRead c bs (.byte b :: answers) consumed s) = prefixClass c := by
      rw [readClass, if_neg hne]
      simp only [midRead, BitVec.toNat_ofNat]
      omega
    rw [run_add (bs.length + 1) 1, ih s (.byte b :: answers) consumed (by omega) hm hi hs'
      (resetLow_mono hl (by omega))]
    simp only
    rw [run_succ 0 (step_dec_byte (s := midRead c bs (.byte b :: answers) consumed s) (answers := answers)
      (consumed := consumed ++ c :: bs) (b := b) hm (by omega) hlow rfl rfl), run_zero, hrc, if_neg (by omega)]
    rw [readData, if_neg hne]
    simp [midRead, afterLevels, List.drop_drop]
    apply BitVec.eq_of_toNat_eq
    simp

end Sys2Proof.Machine
end

