-- ==== Sys2Proof/Laws/Step.lean ====
section
/-! SUPPORT. What a step can do, said once: every step that gives a next state is one of the cases of StepCase, and every
step that gives none is one of those of StepStop. Statements over all steps are proved by cases on these, without
unfolding the step. -/

namespace Sys2Proof.Machine

/-- The steps that give a next state. -/
inductive StepCase (s : State) : State → Prop where
  /-- An asserted reset (R120). -/
  | reset (line : List Bool) (hr : s.resetLine = true :: line) : StepCase s (applyReset { s with resetLine := line })
  /-- A hold: only the reset line moves on (R127; log entry 19). -/
  | hold (hl : ResetLow 1 s) : StepCase s (afterLevels 1 s)
  /-- CLASSIFY or PCLASS, accepted (R83, R84). -/
  | classified (hl : ResetLow 1 s) (hm : s.mode = .idle) (hv : s.respValid = false) (w : CommandWord)
      (rest : List CommandWord) (hp : s.cmdPort = w :: rest) (c : Nat) (hc : c ≤ 8) :
      StepCase s (respondClass c { afterLevels 1 s with cmdPort := rest })
  /-- ENCODE, accepted (R89). -/
  | encodeAccepted (hl : ResetLow 1 s) (hm : s.mode = .idle) (hv : s.respValid = false) (w : CommandWord)
      (rest : List CommandWord) (hp : s.cmdPort = w :: rest) (x : Value) (hk : s.sink.isSome = true) :
      StepCase s { afterLevels 1 s with
        cmdPort := rest, data := x, cls := BitVec.ofNat 4 (classify x), idx := 0#4, mode := .enc }
  /-- DECODE, accepted (R98). -/
  | decodeAccepted (hl : ResetLow 1 s) (hm : s.mode = .idle) (hv : s.respValid = false) (w : CommandWord)
      (rest : List CommandWord) (hp : s.cmdPort = w :: rest) (hq : s.source.isSome = true) :
      StepCase s { afterLevels 1 s with cmdPort := rest, idx := 0#4, mode := .dec }
  /-- The host's take (R25). -/
  | taken (hl : ResetLow 1 s) (hm : s.mode = .idle) (hv : s.respValid = true) (hst : s.resp.status ≠ 0b11#2) (n : Nat)
      (hn : s.hostTakes = n + 1) :
      StepCase s { afterLevels 1 s with respValid := false, hostTakes := n, taken := s.taken ++ [s.resp] }
  /-- A write answered Ok (R90). -/
  | wrote (hl : ResetLow 1 s) (hm : s.mode = .enc) (b : Byte) (held : List Byte) (answers : List SinkAnswer)
      (hb : (encodeValue s.data)[s.idx.toNat]? = some b)
      (hs : s.sink = some { held := held, answers := .ok :: answers }) :
      StepCase s (afterWrite { afterLevels 1 s with sink := some { held := held ++ [b], answers := answers } })
  /-- A write answered IoFail (R90, R104). -/
  | writeFailed (hl : ResetLow 1 s) (hm : s.mode = .enc) (held left : List Byte) (answers : List SinkAnswer)
      (hs : s.sink = some { held := held, answers := .ioFail left :: answers }) :
      StepCase s (raise .ioError s.cls
        { afterLevels 1 s with sink := some { held := held ++ left, answers := answers } })
  /-- A read answered Exhausted or IoFail (R99, R103, R104). -/
  | readFailed (hl : ResetLow 1 s) (hm : s.mode = .dec) (a : SrcAnswer) (e : ErrorKind)
      (ha : (a = .exhausted ∧ e = .truncated) ∨ (a = .ioFail ∧ e = .ioError)) (answers : List SrcAnswer)
      (consumed : List Byte) (hs : s.source = some { answers := a :: answers, consumed := consumed }) :
      StepCase s (raise e (errorClass s)
        { afterLevels 1 s with source := some { answers := answers, consumed := consumed } })
  /-- A read that brings the last byte of an encoding (R99). -/
  | readLast (hl : ResetLow 1 s) (hm : s.mode = .dec) (b : Byte) (answers : List SrcAnswer) (consumed : List Byte)
      (hs : s.source = some { answers := .byte b :: answers, consumed := consumed })
      (hk : s.idx.toNat = readClass b s) (hc : readClass b s ≤ 8) :
      StepCase s (completeWire (readClass b s) (readData b s)
        { afterLevels 1 s with source := some { answers := answers, consumed := consumed ++ [b] } })
  /-- A read that brings another byte (R99). -/
  | readMore (hl : ResetLow 1 s) (hm : s.mode = .dec) (b : Byte) (answers : List SrcAnswer) (consumed : List Byte)
      (hs : s.source = some { answers := .byte b :: answers, consumed := consumed })
      (hk : s.idx.toNat ≠ readClass b s) :
      StepCase s { afterLevels 1 s with
        source := some { answers := answers, consumed := consumed ++ [b] }
        cls := BitVec.ofNat 4 (readClass b s), data := readData b s, idx := s.idx + 1#4 }

/-- A command word is never a wire instruction. -/
theorem decodeCommand_ne_wire {k : Nat} (hk : k ≤ 8) (w : CommandWord) (x : Value) :
    wireInstr k x ≠ some (decodeCommand w) := by
  unfold decodeCommand
  split_ifs <;> interval_cases k <;> simp [wireInstr]

/-- A step that gives a next state is one of the cases. -/
theorem step_cases {s t : State} (h : step s = .next t) : StepCase s t := by
  rcases reset_or_low s with ⟨line, hr⟩ | hl
  · rw [step_of_reset hr] at h
    cases h
    exact .reset line hr
  rw [step_of_low hl] at h
  have hwait : ∀ f : Fault, (if s.resetLine = [] then Host.Outcome.fault f else .next (afterLevels 1 s)) =
      (.next t : Host.Outcome State Fault Refusal) → StepCase s t := by
    intro f h
    split_ifs at h
    cases h
    exact .hold hl
  rcases hm : s.mode with _ | _ | _
  · rcases hv : s.respValid with _ | _
    · rw [blockMove_ready (s := afterLevels 1 s) ((cmdReady_iff s).mpr ⟨hm, hv⟩)] at h
      rcases hp : s.cmdPort with _ | ⟨w, rest⟩
      · simp only [acceptCommand, afterLevels_cmdPort, hp] at h
        exact hwait _ h
      · simp only [acceptCommand, afterLevels_cmdPort, hp] at h
        rcases exec_cases (decodeCommand w) { afterLevels 1 s with cmdPort := rest } with
          ⟨c, hc, he⟩ | ⟨x, -, -, he⟩ | ⟨x, -, hk, he⟩ | ⟨-, -, he⟩ | ⟨-, hq, he⟩ | ⟨k, x, hk, hj, he⟩
        · rw [he] at h; cases h; exact .classified hl hm hv w rest hp c hc
        · rw [he] at h; cases h
        · rw [he] at h; cases h; exact .encodeAccepted hl hm hv w rest hp x hk
        · rw [he] at h; cases h
        · rw [he] at h; cases h; exact .decodeAccepted hl hm hv w rest hp hq
        · exact absurd hj (decodeCommand_ne_wire hk w x)
    · rw [blockMove_take (s := afterLevels 1 s) hm hv] at h
      rcases hostTake_cases (afterLevels 1 s) with ⟨-, ht⟩ | ⟨n, hn, ⟨-, ht⟩ | ⟨hst, ht⟩⟩
      · rw [ht] at h; exact hwait _ h
      · rw [ht] at h; cases h
      · rw [ht] at h; cases h; exact .taken hl hm hv hst n hn
  · rw [blockMove_enc (s := afterLevels 1 s) hm, encodeStep] at h
    simp only [afterLevels_data, afterLevels_idx] at h
    rcases hb : (encodeValue s.data)[s.idx.toNat]? with _ | b
    · rw [hb] at h; cases h
    rw [hb] at h
    rcases hs : s.sink with _ | ⟨held, _ | ⟨a, answers⟩⟩
    · simp only [sinkWrite, afterLevels_sink, hs] at h; cases h
    · simp only [sinkWrite, afterLevels_sink, hs] at h; exact hwait _ h
    · cases a with
      | ok => simp only [sinkWrite, afterLevels_sink, hs] at h; cases h; exact .wrote hl hm b held answers hb hs
      | ioFail left =>
        simp only [sinkWrite, afterLevels_sink, hs] at h; cases h; exact .writeFailed hl hm held left answers hs
  · rw [blockMove_dec (s := afterLevels 1 s) hm, decodeStep] at h
    rcases hs : s.source with _ | ⟨_ | ⟨a, answers⟩, consumed⟩
    · simp only [srcRead, afterLevels_source, hs] at h; cases h
    · simp only [srcRead, afterLevels_source, hs] at h; exact hwait _ h
    cases a with
    | exhausted =>
      simp only [srcRead, afterLevels_source, hs] at h
      cases h
      exact .readFailed hl hm _ _ (.inl ⟨rfl, rfl⟩) answers consumed hs
    | ioFail =>
      simp only [srcRead, afterLevels_source, hs] at h
      cases h
      exact .readFailed hl hm _ _ (.inr ⟨rfl, rfl⟩) answers consumed hs
    | byte b =>
      simp only [srcRead, afterLevels_source, hs] at h
      obtain ⟨u, hu⟩ : ∃ u, u = { afterLevels 1 s with
        source := some { answers := answers, consumed := consumed ++ [b] } } := ⟨_, rfl⟩
      have hread : srcRead (afterLevels 1 s) = .byte b u := by simp only [srcRead, afterLevels_source, hs, hu]
      have h1 : readClass b u = readClass b s := by rw [hu]; rfl
      have h2 : readData b u = readData b s := by rw [hu]; rfl
      have h3 : u.idx = s.idx := by rw [hu]; rfl
      rw [← hu] at h
      simp only [afterRead, h1, h2, h3] at h
      by_cases hk : s.idx.toNat = readClass b s
      · rw [if_pos (by omega)] at h
        rcases hj : wireInstr (readClass b s) (readData b s) with _ | j
        · rw [hj] at h; cases h
        · rw [hj] at h
          simp only [exec_wire hj] at h
          cases h
          rw [hu]
          exact .readLast hl hm b answers consumed hs hk (wireInstr_some hj).1
      · rw [if_neg (by omega)] at h
        cases h
        rw [hu]
        exact .readMore hl hm b answers consumed hs hk

/-- The steps that give no next state, for the outcome `o`. -/
inductive StepStop (s : State) : Host.Outcome State Fault Refusal → Prop where
  /-- An idle block with no command presented. -/
  | waitCommand (hr : s.resetLine = []) (hm : s.mode = .idle) (hv : s.respValid = false) (hp : s.cmdPort = []) :
      StepStop s (.fault .waitCommand)
  /-- A response not taken. -/
  | waitTake (hr : s.resetLine = []) (hm : s.mode = .idle) (hv : s.respValid = true) (hn : s.hostTakes = 0) :
      StepStop s (.fault .waitTake)
  /-- A source that withholds its answer. -/
  | waitSource (hr : s.resetLine = []) (hm : s.mode = .dec) (hs : s.source.map Source.answers = some []) :
      StepStop s (.fault .waitSource)
  /-- A sink that withholds its answer. -/
  | waitSink (hr : s.resetLine = []) (hm : s.mode = .enc) (hs : s.sink.map Sink.answers = some []) :
      StepStop s (.fault .waitSink)
  /-- The take of a response with STATUS 0b11 (I13). -/
  | statusNever (hl : ResetLow 1 s) (hm : s.mode = .idle) (hv : s.respValid = true) (hst : s.resp.status = 0b11#2) :
      StepStop s (.fault .statusNeverProduced)
  /-- IDX past the end of encode(DATA). -/
  | indexOut (hl : ResetLow 1 s) (hm : s.mode = .enc) (hb : (encodeValue s.data)[s.idx.toNat]? = none) :
      StepStop s (.fault .indexOutOfRange)
  /-- CLS above 8. -/
  | classOut (hl : ResetLow 1 s) (hm : s.mode = .dec) (b : Byte) (hc : 8 < readClass b s) :
      StepStop s (.fault .classOutOfRange)
  /-- No sink attached (I18). -/
  | noSink (hl : ResetLow 1 s) (hs : s.sink = none) : StepStop s (.refused .noSinkAttached)
  /-- No source attached (I18). -/
  | noSource (hl : ResetLow 1 s) (hs : s.source = none) : StepStop s (.refused .noSourceAttached)

/-- A step that gives no next state is one of the stops. -/
theorem step_stops {s : State} (h : ∀ t, step s ≠ .next t) : StepStop s (step s) := by
  rcases reset_or_low s with ⟨line, hr⟩ | hl
  · exact absurd (step_of_reset hr) (h _)
  rw [step_of_low hl] at h ⊢
  have hwait : ∀ f : Fault, (∀ t, (if s.resetLine = [] then Host.Outcome.fault f else .next (afterLevels 1 s)) ≠
      (.next t : Host.Outcome State Fault Refusal)) → s.resetLine = [] := by
    intro f h
    by_contra hne
    rw [if_neg hne] at h
    exact h _ rfl
  rcases hm : s.mode with _ | _ | _
  · rcases hv : s.respValid with _ | _
    · rw [blockMove_ready (s := afterLevels 1 s) ((cmdReady_iff s).mpr ⟨hm, hv⟩)] at h ⊢
      rcases hp : s.cmdPort with _ | ⟨w, rest⟩
      · simp only [acceptCommand, afterLevels_cmdPort, hp] at h ⊢
        have hr := hwait _ h
        rw [if_pos hr]
        exact .waitCommand hr hm hv hp
      · simp only [acceptCommand, afterLevels_cmdPort, hp] at h ⊢
        rcases exec_cases (decodeCommand w) { afterLevels 1 s with cmdPort := rest } with
          ⟨c, -, he⟩ | ⟨x, -, hs, he⟩ | ⟨x, -, -, he⟩ | ⟨-, hs, he⟩ | ⟨-, -, he⟩ | ⟨k, x, -, -, he⟩
        · exact absurd he (h _)
        · rw [he]; exact .noSink hl hs
        · exact absurd he (h _)
        · rw [he]; exact .noSource hl hs
        · exact absurd he (h _)
        · exact absurd he (h _)
    · rw [blockMove_take (s := afterLevels 1 s) hm hv] at h ⊢
      rcases hostTake_cases (afterLevels 1 s) with ⟨hn, ht⟩ | ⟨n, hn, ⟨hst, ht⟩ | ⟨hst, ht⟩⟩
      · rw [ht] at h ⊢
        have hr := hwait _ h
        simp only [hr, if_true]
        exact .waitTake hr hm hv hn
      · rw [ht]; exact .statusNever hl hm hv hst
      · rw [ht] at h; exact absurd rfl (h _)
  · rw [blockMove_enc (s := afterLevels 1 s) hm, encodeStep] at h ⊢
    simp only [afterLevels_data, afterLevels_idx] at h ⊢
    rcases hb : (encodeValue s.data)[s.idx.toNat]? with _ | b
    · exact .indexOut hl hm hb
    rw [hb] at h
    rcases hs : s.sink with _ | ⟨held, _ | ⟨a, answers⟩⟩
    · simp only [sinkWrite, afterLevels_sink, hs]; exact .noSink hl hs
    · simp only [sinkWrite, afterLevels_sink, hs] at h ⊢
      have hr := hwait _ h
      rw [if_pos hr]
      exact .waitSink hr hm (by rw [hs]; rfl)
    · cases a with
      | ok => simp only [sinkWrite, afterLevels_sink, hs] at h; exact absurd rfl (h _)
      | ioFail left => simp only [sinkWrite, afterLevels_sink, hs] at h; exact absurd rfl (h _)
  · rw [blockMove_dec (s := afterLevels 1 s) hm, decodeStep] at h ⊢
    rcases hs : s.source with _ | ⟨_ | ⟨a, answers⟩, consumed⟩
    · simp only [srcRead, afterLevels_source, hs]; exact .noSource hl hs
    · simp only [srcRead, afterLevels_source, hs] at h ⊢
      have hr := hwait _ h
      rw [if_pos hr]
      exact .waitSource hr hm (by rw [hs]; rfl)
    cases a with
    | exhausted => simp only [srcRead, afterLevels_source, hs] at h; exact absurd rfl (h _)
    | ioFail => simp only [srcRead, afterLevels_source, hs] at h; exact absurd rfl (h _)
    | byte b =>
      obtain ⟨u, hu⟩ : ∃ u, u = { afterLevels 1 s with
        source := some { answers := answers, consumed := consumed ++ [b] } } := ⟨_, rfl⟩
      have hread : srcRead (afterLevels 1 s) = .byte b u := by simp only [srcRead, afterLevels_source, hs, hu]
      have h1 : readClass b u = readClass b s := by rw [hu]; rfl
      rw [hread] at h ⊢
      simp only at h ⊢
      by_cases hc : readClass b u ≤ 8
      · rcases afterRead_cases hc with ⟨-, j, hj, ha⟩ | ⟨-, ha⟩
        · rw [ha] at h
          exact absurd (exec_wire hj u) (h _)
        · rw [ha] at h
          exact absurd rfl (h _)
      · have hnone : wireInstr (readClass b u) (readData b u) = none := by
          rcases hj : wireInstr (readClass b u) (readData b u) with _ | j
          · rfl
          · exact absurd (wireInstr_some hj).1 hc
        by_cases hk : u.idx.toNat + 1 = readClass b u + 1
        · rw [afterRead, if_pos hk, hnone]
          exact .classOut hl hm b (by omega)
        · rw [afterRead, if_neg hk] at h
          exact absurd rfl (h _)

/-- Everything a platform's step that gives a next state can do: one instance takes one step, the map stays. -/
theorem Platform.step_next {k : Nat} {p q : Platform} (h : Platform.step k p = .next q) :
    ∃ s t, p.instances[k]? = some s ∧ Machine.step s = .next t ∧ q = { p with instances := p.instances.set k t } := by
  unfold Platform.step at h
  rcases hp : p.instances[k]? with _ | s
  · simp [hp] at h
  · rcases hs : Machine.step s with t | f | r <;> simp only [hp, hs] at h <;> cases h
    exact ⟨s, t, rfl, hs, rfl⟩

@[simp] theorem PlatformMap.addressOf_nil (k : Nat) (port : Port) : PlatformMap.addressOf [] k port = none := rfl

end Sys2Proof.Machine
end

