-- ==== Sys2Proof/Tests/Slice0.lean ====
section
/-! SUPPORT. The model's own tests. Expected values come from spec/95_test_vectors.md (the vector is named), from the
encodings of spec/30_encoding.md written out by hand, or from the rule named. The last part shows, for every obligation with
hypotheses, a case that meets them, clause by clause where it has several. -/

namespace Sys2Proof.Tests

open Sys2Proof Sys2Proof.Machine Sys2Proof.Claims

/-! ### Helpers -/

/-- The next state of one step, if there is one. -/
def stepped (s : State) : Option State :=
  match step s with
  | .next t => some t
  | .fault _ => none
  | .refused _ => none

/-- The response that stands after one step. -/
def answer (s : State) : Option Response :=
  (stepped s).bind fun t => if t.respValid then some t.resp else none

/-- The instruction of a table word, fetched right after reset, in one step. -/
def firstAnswer (nbits w : Nat) : Option Response := answer (State.reset.withFetchWord nbits w)

/-- A ready block with a word presented and its streams' answers. -/
def presented (w : CommandWord) (source : List SrcAnswer) (sink : List SinkAnswer) : State :=
  { State.reset with
    cmdPort := [w]
    source := some { answers := source, consumed := [] }
    sink := some { held := [], answers := sink } }

/-- An ENCODE of x in progress at byte k, with its sink's answers. -/
def encoding (x : Value) (k : Nat) (answers : List SinkAnswer) : State :=
  { State.reset with
    mode := .enc
    data := x
    cls := BitVec.ofNat 4 (classify x)
    idx := BitVec.ofNat 4 k
    sink := some { held := (encodeValue x).take k, answers := answers } }

/-- A DECODE in progress with class i found, k bytes read and d accumulated, with its source's answers. -/
def decoding (i k : Nat) (d : Value) (answers : List SrcAnswer) : State :=
  { State.reset with
    mode := .dec
    data := d
    cls := BitVec.ofNat 4 i
    idx := BitVec.ofNat 4 k
    source := some { answers := answers, consumed := [] } }

/-- An idle block with the response r not yet taken, and a host that takes n responses. -/
def responded (r : Response) (n : Nat) : State := { State.reset with resp := r, respValid := true, hostTakes := n }

/-! ### Well-formedness: each check refuses an ill-formed term (R54 to R61), and its bound is met -/

theorem smoke_vliC0 : (Instr.vliC0 0x80#64).wellFormed = false ∧ (Instr.vliC0 0x7F#64).wellFormed = true := by decide
theorem smoke_vliC1 : (Instr.vliC1 0x4000#64).wellFormed = false ∧ (Instr.vliC1 0x3FFF#64).wellFormed = true := by decide
theorem smoke_vliC2 :
    (Instr.vliC2 0x200000#64).wellFormed = false ∧ (Instr.vliC2 0x1FFFFF#64).wellFormed = true := by decide
theorem smoke_vliC3 :
    (Instr.vliC3 0x10000000#64).wellFormed = false ∧ (Instr.vliC3 0xFFFFFFF#64).wellFormed = true := by decide
theorem smoke_vliC4 :
    (Instr.vliC4 0x800000000#64).wellFormed = false ∧ (Instr.vliC4 0x7FFFFFFFF#64).wellFormed = true := by decide
theorem smoke_vliC5 :
    (Instr.vliC5 0x40000000000#64).wellFormed = false ∧ (Instr.vliC5 0x3FFFFFFFFFF#64).wellFormed = true := by decide
theorem smoke_vliC6 :
    (Instr.vliC6 0x2000000000000#64).wellFormed = false ∧ (Instr.vliC6 0x1FFFFFFFFFFFF#64).wellFormed = true := by
  decide
theorem smoke_vliC7 :
    (Instr.vliC7 0x100000000000000#64).wellFormed = false ∧ (Instr.vliC7 0xFFFFFFFFFFFFFF#64).wellFormed = true := by
  decide

/-! ### Decoding: every constructor from a word written out bit by bit -/

/-- R68's OP codes over an ARG of 0x00000000000000F0, bit 65 first (R67). -/
theorem test_decode_commands :
    decodeCommand 0b000000000000000000000000000000000000000000000000000000000011110000#66 = .classify 0xF0#64 ∧
      decodeCommand 0b010000000000000000000000000000000000000000000000000000000011110000#66 = .encode 0xF0#64 ∧
      decodeCommand 0b100000000000000000000000000000000000000000000000000000000011110000#66 = .decode ∧
      decodeCommand 0b110000000000000000000000000000000000000000000000000000000011110000#66 = .pclass 0xF0#8 := by
  decide

/-- R54 to R56: V-EN2, V-EN20, V-EN21, with a byte left over. -/
theorem test_decode_wire_0_to_2 :
    decodeWire [0b01111111#8, 0xAA#8] = .ok (.vliC0 0x7F#64) [0xAA#8] ∧
      decodeWire [0b10010010#8, 0b00110100#8] = .ok (.vliC1 0x1234#64) [] ∧
      decodeWire [0b11010010#8, 0b00110100#8, 0b01010110#8] = .ok (.vliC2 0x123456#64) [] := by
  decide

/-- R57 to R59: V-EN8, V-EN23, V-EN24. -/
theorem test_decode_wire_3_to_5 :
    decodeWire [0b11101111#8, 0xFF#8, 0xFF#8, 0xFF#8] = .ok (.vliC3 0xFFFFFFF#64) [] ∧
      decodeWire [0b11110001#8, 0x23#8, 0x45#8, 0x67#8, 0x89#8] = .ok (.vliC4 0x123456789#64) [] ∧
      decodeWire [0b11111001#8, 0x23#8, 0x45#8, 0x67#8, 0x89#8, 0xAB#8] = .ok (.vliC5 0x123456789AB#64) [] := by
  decide

/-- R60 to R62: V-EN25, V-EN26, V-EN28. -/
theorem test_decode_wire_6_to_8 :
    decodeWire [0b11111101#8, 0x23#8, 0x45#8, 0x67#8, 0x89#8, 0xAB#8, 0xCD#8] = .ok (.vliC6 0x123456789ABCD#64) [] ∧
      decodeWire [0b11111110#8, 0x12#8, 0x34#8, 0x56#8, 0x78#8, 0x9A#8, 0xBC#8, 0xDE#8] =
        .ok (.vliC7 0x123456789ABCDE#64) [] ∧
      decodeWire [0b11111111#8, 0x01#8, 0x23#8, 0x45#8, 0x67#8, 0x89#8, 0xAB#8, 0xCD#8, 0xEF#8] =
        .ok (.vliC8 0x123456789ABCDEF#64) [] := by
  decide

/-- R92: too few bytes are refused by name (V-DE38 and V-DE41). -/
theorem test_decode_truncated :
    decodeWire [0xFE#8, 0xFF#8, 0xFF#8, 0xFF#8, 0xFF#8, 0xFF#8, 0xFF#8] = .truncated 7 7 ∧
      decodeWire [] = .truncated 0 0 := by
  decide

/-- The opcode table's match words, with zero operands, decode to their rows. -/
theorem test_table_words :
    decodeTableWord 72 0x00000000000000000 = some (.classify 0#64) ∧
      decodeTableWord 72 0x10000000000000000 = some (.encode 0#64) ∧
      decodeTableWord 72 0x20000000000000000 = some .decode ∧
      decodeTableWord 72 0x30000000000000000 = some (.pclass 0#8) ∧
      decodeTableWord 8 0x00 = some (.vliC0 0#64) ∧ decodeTableWord 16 0x80 = some (.vliC1 0#64) ∧
      decodeTableWord 24 0xC0 = some (.vliC2 0#64) ∧ decodeTableWord 32 0xE0 = some (.vliC3 0#64) ∧
      decodeTableWord 40 0xF0 = some (.vliC4 0#64) ∧ decodeTableWord 48 0xF8 = some (.vliC5 0#64) ∧
      decodeTableWord 56 0xFC = some (.vliC6 0#64) ∧ decodeTableWord 64 0xFE = some (.vliC7 0#64) ∧
      decodeTableWord 72 0xFF = some (.vliC8 0#64) := by
  decide

/-! ### One step: an instruction fetched right after reset (table words: the first byte lowest) -/

/-- V-CL5. -/
theorem test_classify : firstAnswer 72 0x00000000000004000 = some ⟨0#2, 2#4, 3#4, 0#64⟩ := by decide

/-- V-CL17: the first value of class 8. -/
theorem test_classify_class_eight : firstAnswer 72 0x00100000000000000 = some ⟨0#2, 8#4, 9#4, 0#64⟩ := by decide

/-- V-PC18: ARG[63:8] is ignored. -/
theorem test_pclass : firstAnswer 72 0x30123456789ABCDFE = some ⟨0#2, 7#4, 8#4, 0#64⟩ := by decide

/-- V-PC16, presented on the port. -/
theorem test_pclass_all_ones : answer (presented 0x300000000000000FF#66 [] []) = some ⟨0#2, 8#4, 9#4, 0#64⟩ := by decide

/-- Section 2.7, ENCODE 0x80, step 0. -/
theorem test_encode_acceptance :
    (stepped (State.reset.withFetchWord 72 0x10000000000000080)).map (fun t => (t.mode, t.data, t.cls, t.idx)) =
      some (.enc, 0x80#64, 1#4, 0#4) := by
  decide

/-- Section 2.7, ENCODE 0x80, step 2. -/
theorem test_encode_last_write :
    (stepped (encoding 0x80#64 1 [.ok])).map (fun t => (t.mode, t.idx, t.resp, t.sink.map Sink.held)) =
      some (.idle, 2#4, ⟨0#2, 1#4, 2#4, 0#64⟩, some [0x80#8, 0x80#8]) := by
  decide

/-- Section 2.7, DECODE, step 0. -/
theorem test_decode_acceptance :
    (stepped (State.reset.withFetchWord 72 0x20000000000000000)).map (fun t => (t.mode, t.idx)) = some (.dec, 0#4) := by
  decide

/-- Section 2.7, DECODE, step 2. -/
theorem test_decode_middle_read :
    (stepped (decoding 2 1 0#64 [.byte 0x40#8])).map (fun t => (t.mode, t.cls, t.idx, t.data)) =
      some (.dec, 2#4, 2#4, 0x40#64) := by
  decide

/-- V-DE2. -/
theorem test_vliC0 : firstAnswer 8 0x7F = some ⟨0#2, 0#4, 1#4, 0x7F#64⟩ := by decide

/-- The bytes of V-EN20, [0x92, 0x34]. -/
theorem test_vliC1 : firstAnswer 16 0x3492 = some ⟨0#2, 1#4, 2#4, 0x1234#64⟩ := by decide

/-- V-DE5 and section 2.7, DECODE, step 3. -/
theorem test_vliC2 : firstAnswer 24 0x0040C0 = some ⟨0#2, 2#4, 3#4, 0x4000#64⟩ := by decide

/-- V-DE7. -/
theorem test_vliC3 : firstAnswer 32 0x000020E0 = some ⟨0#2, 3#4, 4#4, 0x200000#64⟩ := by decide

/-- P3, line 5. -/
theorem test_vliC4 : firstAnswer 40 0x3412F012F0 = some ⟨0#2, 4#4, 5#4, 0x12F01234#64⟩ := by decide

/-- The bytes of V-EN24. -/
theorem test_vliC5 : firstAnswer 48 0xAB89674523F9 = some ⟨0#2, 5#4, 6#4, 0x123456789AB#64⟩ := by decide

/-- The bytes of V-EN25. -/
theorem test_vliC6 : firstAnswer 56 0xCDAB89674523FD = some ⟨0#2, 6#4, 7#4, 0x123456789ABCD#64⟩ := by decide

/-- The bytes of V-EN26. -/
theorem test_vliC7 : firstAnswer 64 0xDEBC9A78563412FE = some ⟨0#2, 7#4, 8#4, 0x123456789ABCDE#64⟩ := by decide

/-- The bytes of V-EN27. -/
theorem test_vliC8 : firstAnswer 72 0xF0DEBC9A78563412FF = some ⟨0#2, 8#4, 9#4, 0x123456789ABCDEF0#64⟩ := by decide

/-! ### One step: errors, holds, the take and reset -/

/-- V-EF3, the failing third write. -/
theorem test_write_fails :
    (stepped (encoding 0x4000#64 2 [.ioFail []])).map (fun t => (t.mode, t.resp, t.sink.map Sink.held)) =
      some (.idle, ⟨2#2, 2#4, 2#4, 0#64⟩, some [0xC0#8, 0x40#8]) := by
  decide

/-- V-DE41 (an empty source) and V-DE42 (a source cut short). -/
theorem test_read_exhausted :
    answer (decoding 5 0 0xFF#64 [.exhausted]) = some ⟨1#2, 0#4, 0#4, 0#64⟩ ∧
      answer (decoding 1 1 0#64 [.exhausted]) = some ⟨1#2, 1#4, 1#4, 0#64⟩ := by
  decide

/-- V-DF5. -/
theorem test_read_fails : answer (decoding 8 8 0x01010101010101#64 [.ioFail]) = some ⟨2#2, 8#4, 8#4, 0#64⟩ := by decide

/-- R119: after reset the block waits for a command; R122: that is the end of an empty program's run. -/
theorem test_reset_waits : step State.reset = .fault .waitCommand ∧ runEnded State.reset = true := by
  exact ⟨rfl, rfl⟩

/-- R25: the host's take. -/
theorem test_take :
    (stepped (responded ⟨0#2, 0#4, 1#4, 5#64⟩ 1)).map (fun t => (t.respValid, t.taken)) =
      some (false, [⟨0#2, 0#4, 1#4, 5#64⟩]) := by
  decide

/-- R120: reset while an ENCODE is busy gives no response and keeps the bytes written. -/
theorem test_reset_while_busy :
    (stepped { encoding 0x80#64 1 [.ok] with resetLine := [true] }).map
        (fun t => (t.mode, t.respValid, t.sink.map Sink.held)) =
      some (.idle, false, some [0x80#8]) := by
  decide

/-- Log entry 23: a reset that discards the last response ends the run. -/
theorem test_reset_ends_the_run :
    (stepped { responded ⟨0#2, 0#4, 1#4, 5#64⟩ 0 with resetLine := [true] }).map (fun t => (runEnded t, t.taken)) =
      some (true, []) := by
  decide

/-! ### Witnesses: for each obligation with hypotheses, values that meet them -/

theorem witness_ClassifyIsTheSmallestFittingClass :
    (0 ≤ 8 ∧ (0x7F#64).toNat ≤ maxForClass 0) ∧ (8 ≤ 8 ∧ (BitVec.allOnes 64).toNat ≤ maxForClass 8) := by decide

theorem witness_ClassBoundaryTableGivesClassAndLength :
    (8, 0x100000000000000, 0xFFFFFFFFFFFFFFFF, 9, 64) ∈ classTable ∧ classify 0x100000000000000#64 = 8 ∧
      classify 0xFFFFFFFFFFFFFF#64 = 7 := by
  decide

/-- The highest nonzero 7-bit group of 0x80 is group 1. -/
theorem witness_ClassifyBySignificantBitsAndGroups :
    (0x80#64).toNat / 2 ^ (7 * 1) % 128 ≠ 0 ∧ ∀ h, 1 < h → (0x80#64).toNat / 2 ^ (7 * h) % 128 = 0 := by
  refine ⟨by decide, fun h hh => ?_⟩
  have : (128 : Nat) < 2 ^ (7 * h) :=
    lt_of_lt_of_le (by norm_num) (Nat.pow_le_pow_right (n := 2) (by norm_num) (show 14 ≤ 7 * h by omega))
  simp [Nat.div_eq_of_lt this]

theorem witness_ClassAndLengthAreMonotone : (0x3FFF#64).toNat < (0x4000#64).toNat := by decide

theorem witness_PrefixClassTestsTheThresholds :
    3 < prefixClass 0xF0#8 ∧ prefixClass 0xFE#8 ≤ 7 ∧ prefixClass 0xFF#8 = 8 := by decide

/-- Also the hypotheses of BitStreamOfClassesZeroToSeven at its highest class. -/
theorem witness_TheTwoClassifiersAgree :
    7 ≤ 7 ∧ wireInstr 7 0xFFFFFFFFFFFFFF#64 = some (.vliC7 0xFFFFFFFFFFFFFF#64) ∧
      (Instr.vliC7 0xFFFFFFFFFFFFFF#64).wellFormed = true := by
  decide

theorem witness_BitStreamOfClassesZeroToSeven :
    0 ≤ 7 ∧ wireInstr 0 0x7F#64 = some (.vliC0 0x7F#64) ∧ (Instr.vliC0 0x7F#64).wellFormed = true ∧ 7 < 8 * (0 + 1) := by
  decide

theorem witness_ClassLayoutsEncodeAndDecode :
    (0x7F#64).toNat ≤ 0x7F ∧ (0x3FFF#64).toNat ≤ 0x3FFF ∧ (0x1FFFFF#64).toNat ≤ 0x1FFFFF ∧
      (0xFFFFFFF#64).toNat ≤ 0xFFFFFFF ∧ (0x7FFFFFFFF#64).toNat ≤ 0x7FFFFFFFF ∧
      (0x3FFFFFFFFFF#64).toNat ≤ 0x3FFFFFFFFFF ∧ (0x1FFFFFFFFFFFF#64).toNat ≤ 0x1FFFFFFFFFFFF ∧
      (0xFFFFFFFFFFFFFF#64).toNat ≤ 0xFFFFFFFFFFFFFF := by
  decide

theorem witness_ClosedFormOfEveryEncoding :
    wireInstr 8 (BitVec.allOnes 64) = some (.vliC8 (BitVec.allOnes 64)) ∧
      (Instr.vliC8 (BitVec.allOnes 64)).wellFormed = true := by
  decide

theorem witness_EncoderEmitsTheLayoutOfItsClass : wireInstr (classify 0x4000#64) 0x4000#64 = some (.vliC2 0x4000#64) := by
  decide

theorem witness_FirstByteHasOnesThenTerminator :
    1 < classify 0x4000#64 ∧ classify 0xFFFFFFFFFFFFFF#64 ≤ 7 ∧ classify 0x100000000000000#64 = 8 := by decide

/-- V-LW4: a longer encoding, and the shortest. -/
theorem witness_EncoderIsCanonicalAndMinimal :
    decodeBytes [0xC0#8, 0x00#8, 0x05#8] = .ok 5#64 [0xC0#8, 0x00#8, 0x05#8].length ∧
      decodeBytes [0x05#8] = .ok 5#64 [0x05#8].length ∧ [0x05#8].length = classify 5#64 + 1 := by
  decide

theorem witness_EncodingsAreSelfDelimiting :
    encodeValue 0x4000#64 ++ [0x05#8] = [0xC0#8, 0x40#8] ++ [0x00#8, 0x05#8] ∧
      encodeValue 5#64 ++ [0x80#8] = encodeValue 5#64 ++ [0x80#8] := by
  decide

theorem witness_EverySequenceOfClassLengthDecodes : [0x00#8, 0x05#8].length = prefixClass 0xC0#8 := by decide

theorem witness_OneEncodingInEachClassFromItsOwn :
    8 ≤ 8 ∧ classify 5#64 ≤ 8 ∧ 1 < classify 0x4000#64 := by decide

theorem witness_DecodeOfEncodeIsTheInstruction :
    (Instr.vliC1 0x80#64).wellFormed = true ∧ encode (.vliC1 0x80#64) = .wire [0x80#8, 0x80#8] := by decide

theorem witness_DecodedBytesAreTheEncoding : decodeWire [0x80#8, 0x05#8, 0xFF#8] = .ok (.vliC1 5#64) [0xFF#8] := by decide

theorem witness_OnlyTooFewBytesAreRejected :
    ([0x40#8] : List Byte).length < prefixClass 0xC0#8 ∧ prefixClass 0xC0#8 ≤ [0x40#8, 0x00#8].length := by decide

theorem witness_CommandWordOperandsAndIgnoredBits :
    cmdReady State.reset = true ∧ ResetLow 1 State.reset ∧
      (0x0123456789ABCDFE#64).extractLsb' 0 8 = (0xFE#64).extractLsb' 0 8 ∧ 0xFF < 256 := by
  decide

theorem witness_AssembledLinesDecodeToTheirInstruction :
    lineInRange (.encode (2 ^ 64 - 1)) = true ∧ lineInRange (.encode (2 ^ 64)) = false ∧
      lineInRange (.classify (2 ^ 64 - 1)) = true ∧ lineInRange (.classify (2 ^ 64)) = false ∧
      lineInRange .decode = true ∧ lineInRange (.pclass 255) = true ∧ lineInRange (.pclass 256) = false := by
  decide

/-- Class 1 at both its bounds, and class 8 at its upper one. -/
theorem witness_ClassifyRespondsInItsAcceptanceStep :
    (1 ≤ 8 ∧ minForClass 1 ≤ (0x80#64).toNat ∧ (0x3FFF#64).toNat ≤ maxForClass 1 ∧
        (BitVec.allOnes 64).toNat ≤ maxForClass 8) ∧
      cmdReady (presented (commandWord 0b00#2 0x80#64) [] []) = true ∧
      ResetLow 1 (presented (commandWord 0b00#2 0x80#64) [] []) ∧
      (presented (commandWord 0b00#2 0x80#64) [] []).cmdPort = [commandWord 0b00#2 0x80#64] := by
  decide

theorem witness_PclassRespondsInItsAcceptanceStep :
    (8 ≤ 8 ∧ 0xFF#8 &&& hdr 8 = pfx 8) ∧ (7 ≤ 8 ∧ 0xFE#8 &&& hdr 7 = pfx 7) ∧
      (0x0123456789ABCDFE#64).extractLsb' 0 8 = 0xFE#8 ∧
      cmdReady (presented (commandWord 0b11#2 0x0123456789ABCDFE#64) [] []) = true ∧
      ResetLow 1 (presented (commandWord 0b11#2 0x0123456789ABCDFE#64) [] []) := by
  decide

theorem witness_EncodeAcceptanceWritesTheTransaction :
    (2 ≤ 8 ∧ minForClass 2 ≤ (0x4000#64).toNat ∧ (0x4000#64).toNat ≤ maxForClass 2) ∧
      (presented (commandWord 0b01#2 0x4000#64) [] []).sink.isSome = true := by
  decide

theorem witness_DecodeAcceptanceStartsTheTransaction :
    (presented (commandWord 0b10#2 0#64) [] []).source.isSome = true := by decide

/-- Both sides of the equivalence are met: a refused ENCODE and a refused DECODE. -/
theorem witness_OnlyUnattachedStreamsAreRefused :
    (exec (.encode 5#64) State.reset = .refused .noSinkAttached ∧ State.reset.sink = none) ∧
      exec .decode State.reset = .refused .noSourceAttached ∧ State.reset.source = none := by
  exact ⟨⟨rfl, rfl⟩, rfl, rfl⟩

theorem witness_WireInstructionsEndTheDecode :
    wireInstr 0 5#64 = some (.vliC0 5#64) ∧ wireInstr 8 5#64 = some (.vliC8 5#64) := by decide

theorem witness_StepRunsTheCommandPresented :
    cmdReady (presented (commandWord 0b10#2 0#64) [] []) = true ∧ ResetLow 1 (presented (commandWord 0b10#2 0#64) [] []) ∧
      (presented (commandWord 0b10#2 0#64) [] []).cmdPort = [commandWord 0b10#2 0#64] := by
  decide

/-- A first byte that completes class 0, and a last byte of class 8. -/
theorem witness_StepRunsTheWireInstructionRead :
    ((decoding 3 0 0xFF#64 [.byte 0x05#8]).mode = .dec ∧ ResetLow 1 (decoding 3 0 0xFF#64 [.byte 0x05#8]) ∧
        (decoding 3 0 0xFF#64 [.byte 0x05#8]).idx = 0#4 ∧ prefixClass 0x05#8 = 0 ∧
        wireInstr 0 ((0x05#8 &&& lit 0).setWidth 64) = some (.vliC0 5#64)) ∧
      (decoding 8 8 0x01#64 [.byte 0x05#8]).idx ≠ 0#4 ∧
      (decoding 8 8 0x01#64 [.byte 0x05#8]).idx = (decoding 8 8 0x01#64 [.byte 0x05#8]).cls ∧
      wireInstr 8 ((0x01#64 <<< 8) ||| (0x05#8).setWidth 64) = some (.vliC8 0x0105#64) := by
  decide

/-- A write in the middle, the last write, and a failing write (V-EF1). -/
theorem witness_EncodeWriteStep :
    ((encoding 0x4000#64 0 [.ok]).mode = .enc ∧ EncodeInProgress (encoding 0x4000#64 0 [.ok]) ∧
        ResetLow 1 (encoding 0x4000#64 0 [.ok]) ∧ (encodeValue 0x4000#64)[0]? = some 0xC0#8 ∧
        (encoding 0x4000#64 0 [.ok]).idx ≠ (encoding 0x4000#64 0 [.ok]).cls ∧
        (encoding 0x4000#64 0 [.ok]).sink = some ⟨[], [.ok]⟩) ∧
      (EncodeInProgress (encoding 0x4000#64 2 [.ok]) ∧ (encodeValue 0x4000#64)[2]? = some 0x00#8 ∧
        (encoding 0x4000#64 2 [.ok]).idx = (encoding 0x4000#64 2 [.ok]).cls) ∧
      EncodeInProgress (encoding 0#64 0 [.ioFail []]) ∧ (encodeValue 0#64)[0]? = some 0x00#8 ∧
      (encoding 0#64 0 [.ioFail []]).sink = some ⟨[], [.ioFail []]⟩ := by
  decide

/-- First and later bytes, the byte that completes an encoding or does not, and both failures. -/
theorem witness_DecodeReadStep :
    (DecodeInProgress (decoding 8 0 (BitVec.allOnes 64) [.byte 0xC0#8]) ∧ (0#4).toNat ≠ prefixClass 0xC0#8) ∧
      (DecodeInProgress (decoding 8 0 (BitVec.allOnes 64) [.byte 0x05#8]) ∧ (0#4).toNat = prefixClass 0x05#8) ∧
      (DecodeInProgress (decoding 8 7 0xFFFFFFFFFFFF#64 [.byte 0xC0#8]) ∧
        (decoding 8 7 0xFFFFFFFFFFFF#64 [.byte 0xC0#8]).idx.toNat ≠ 8) ∧
      (DecodeInProgress (decoding 8 8 0xFFFFFFFFFFFFFF#64 [.byte 0xC0#8]) ∧
        (decoding 8 8 0xFFFFFFFFFFFFFF#64 [.byte 0xC0#8]).idx.toNat = 8) ∧
      (DecodeInProgress (decoding 1 1 0x3F#64 [.exhausted]) ∧ ResetLow 1 (decoding 1 1 0x3F#64 [.exhausted])) ∧
      DecodeInProgress (decoding 0 0 0#64 [.ioFail]) ∧ (decoding 0 0 0#64 [.ioFail]).mode = .dec := by
  decide

theorem witness_FailedTransfersAreNotRepeated :
    (ResetLow 1 (encoding 0x80#64 1 [.ioFail [], .ok]) ∧ (encoding 0x80#64 1 [.ioFail [], .ok]).mode = .enc ∧
        EncodeInProgress (encoding 0x80#64 1 [.ioFail [], .ok]) ∧
        (encoding 0x80#64 1 [.ioFail [], .ok]).sink = some ⟨[0x80#8], [.ioFail [], .ok]⟩) ∧
      (decoding 1 1 0#64 [.ioFail, .byte 0#8]).mode = .dec ∧
      (decoding 1 1 0#64 [.ioFail, .byte 0#8]).source = some ⟨[.ioFail, .byte 0#8], []⟩ := by
  decide

/-- One state for each of the four holds, with the line low for good and with a low level to come. -/
theorem witness_HoldsUntilTheEnvironmentMoves :
    ((encoding 0x80#64 1 []).mode = .enc ∧ EncodeInProgress (encoding 0x80#64 1 []) ∧
        (encoding 0x80#64 1 []).sink.map Sink.answers = some [] ∧ (encoding 0x80#64 1 []).resetLine = []) ∧
      ((decoding 1 1 0#64 []).mode = .dec ∧ (decoding 1 1 0#64 []).source.map Source.answers = some []) ∧
      ((responded ⟨0#2, 0#4, 1#4, 0#64⟩ 0).mode = .idle ∧ (responded ⟨0#2, 0#4, 1#4, 0#64⟩ 0).respValid = true ∧
        (responded ⟨0#2, 0#4, 1#4, 0#64⟩ 0).hostTakes = 0) ∧
      cmdReady { State.reset with resetLine := [false, true] } = true ∧ State.reset.cmdPort = [] := by
  decide

theorem witness_EncodeRunWritesTheEncoding :
    cmdReady (presented (commandWord 0b01#2 0x80#64) [] [.ok, .ok, .ok]) = true ∧
      (presented (commandWord 0b01#2 0x80#64) [] [.ok, .ok, .ok]).sink =
        some ⟨[], List.replicate (classify 0x80#64 + 1) .ok ++ [.ok]⟩ ∧
      ResetLow (classify 0x80#64 + 2) (presented (commandWord 0b01#2 0x80#64) [] [.ok, .ok, .ok]) := by
  decide

/-- V-EF4 (the last write fails) and V-EF5 (the first). -/
theorem witness_EncodeRunStopsAtTheFailingWrite :
    (8 ≤ classify (BitVec.allOnes 64) ∧
        (presented (commandWord 0b01#2 (BitVec.allOnes 64)) [] (List.replicate 8 .ok ++ [.ioFail []])).sink =
          some ⟨[], List.replicate 8 .ok ++ .ioFail [] :: []⟩) ∧
      0 ≤ classify 0x12345678#64 ∧
      cmdReady (presented (commandWord 0b01#2 0x12345678#64) [] [.ioFail []]) = true ∧
      (presented (commandWord 0b01#2 0x12345678#64) [] [.ioFail []]).sink =
        some ⟨[], List.replicate 0 .ok ++ .ioFail [] :: []⟩ ∧
      ResetLow 2 (presented (commandWord 0b01#2 0x12345678#64) [] [.ioFail []]) := by
  decide

/-- V-DE5 with a byte left over (P2, line 1), and V-DE42. -/
theorem witness_DecodeRunAgreesWithDecodeBytes :
    (decodeBytes [0xC0#8, 0x40#8, 0x00#8, 0x05#8] = .ok 0x4000#64 3 ∧
        (presented (commandWord 0b10#2 0#64) [.byte 0xC0#8, .byte 0x40#8, .byte 0x00#8, .byte 0x05#8, .exhausted] []).source =
          some ⟨[0xC0#8, 0x40#8, 0x00#8, 0x05#8].map .byte ++ .exhausted :: [], []⟩ ∧
        cmdReady (presented (commandWord 0b10#2 0#64) [] []) = true ∧
        ResetLow 4 (presented (commandWord 0b10#2 0#64) [] [])) ∧
      decodeBytes [0x80#8] = .truncated 1 1 ∧
      (presented (commandWord 0b10#2 0#64) [.byte 0x80#8, .exhausted] []).source =
        some ⟨[0x80#8].map .byte ++ .exhausted :: [], []⟩ := by
  decide

/-- A failing write; a first read answered IoFail (V-DF1) and one answered Exhausted (V-DE41); the last read of class 8
answered IoFail (V-DF5) and the second one of class 1 answered Exhausted (V-DE42). -/
theorem witness_ResponseFieldsOnAnError :
    (2 ≤ classify 0x4000#64 ∧ cmdReady (presented (commandWord 0b01#2 0x4000#64) [] [.ok, .ok, .ioFail []]) = true ∧
        (presented (commandWord 0b01#2 0x4000#64) [] [.ok, .ok, .ioFail []]).sink =
          some ⟨[], List.replicate 2 .ok ++ .ioFail [] :: []⟩) ∧
      ((presented (commandWord 0b10#2 0#64) [.ioFail] []).source = some ⟨.ioFail :: [], []⟩ ∧
        ResetLow 2 (presented (commandWord 0b10#2 0#64) [.ioFail] [])) ∧
      (List.replicate 7 0x01#8).length < prefixClass 0xFF#8 ∧
      (presented (commandWord 0b10#2 0#64) ((0xFF#8 :: List.replicate 7 0x01#8).map .byte ++ [.ioFail]) []).source =
        some ⟨(0xFF#8 :: List.replicate 7 0x01#8).map .byte ++ .ioFail :: [], []⟩ ∧
      (presented (commandWord 0b10#2 0#64) [.exhausted] []).source = some ⟨.exhausted :: [], []⟩ ∧
      ([] : List Byte).length < prefixClass 0x80#8 ∧
      cmdReady (presented (commandWord 0b10#2 0#64) [.byte 0x80#8, .exhausted] []) = true ∧
      ResetLow 3 (presented (commandWord 0b10#2 0#64) [.byte 0x80#8, .exhausted] []) ∧
      (presented (commandWord 0b10#2 0#64) [.byte 0x80#8, .exhausted] []).source =
        some ⟨[0x80#8].map .byte ++ .exhausted :: [], []⟩ := by
  decide

theorem witness_ReadingAnEncodingRunsItsInstruction :
    wireInstr 1 5#64 = some (.vliC1 5#64) ∧ (Instr.vliC1 5#64).wellFormed = true ∧
      (decoding 7 0 5#64 [.byte 0x80#8, .byte 0x05#8]).mode = .dec ∧
      (decoding 7 0 5#64 [.byte 0x80#8, .byte 0x05#8]).idx = 0#4 ∧
      (decoding 7 0 5#64 [.byte 0x80#8, .byte 0x05#8]).source = some ⟨(encode (.vliC1 5#64)).bytes.map .byte ++ [], []⟩ ∧
      ResetLow 2 (decoding 7 0 5#64 [.byte 0x80#8, .byte 0x05#8]) := by
  decide

/-- P4: the bytes an ENCODE 0x80 writes, served to a DECODE. -/
theorem witness_RoundTripThroughTheStreams :
    (cmdReady (presented (commandWord 0b01#2 0x80#64) [] [.ok, .ok]) = true ∧
        (presented (commandWord 0b01#2 0x80#64) [] [.ok, .ok]).sink =
          some ⟨[], List.replicate (classify 0x80#64 + 1) .ok ++ []⟩ ∧
        ResetLow 3 (presented (commandWord 0b01#2 0x80#64) [] [.ok, .ok])) ∧
      (presented (commandWord 0b10#2 0#64) [.byte 0x80#8, .byte 0x80#8] []).source =
        some ⟨(encodeValue 0x80#64).map .byte ++ [], []⟩ := by
  decide

theorem witness_CommandsAreAcceptedOnlyWhenReady :
    (stepped (presented (commandWord 0b00#2 5#64) [] [])).map State.cmdPort = some [] := by decide

/-- A step that takes a response, and one that changes RESP. -/
theorem witness_ResponseSlotIsFilledAndTaken :
    (stepped (responded ⟨0#2, 0#4, 1#4, 5#64⟩ 1)).map State.taken = some [⟨0#2, 0#4, 1#4, 5#64⟩] ∧
      (stepped (presented (commandWord 0b00#2 5#64) [] [])).map State.resp = some ⟨0#2, 0#4, 1#4, 0#64⟩ ∧
      (presented (commandWord 0b00#2 5#64) [] []).resp ≠ ⟨0#2, 0#4, 1#4, 0#64⟩ := by
  decide

/-- A response with STATUS OK, and one with STATUS 0b11. -/
theorem witness_HostTakesAResponseInAStepOfItsOwn :
    ((responded ⟨0#2, 0#4, 1#4, 5#64⟩ 1).mode = .idle ∧ (responded ⟨0#2, 0#4, 1#4, 5#64⟩ 1).respValid = true ∧
        (responded ⟨0#2, 0#4, 1#4, 5#64⟩ 1).resp.status ≠ 0b11#2 ∧
        (responded ⟨0#2, 0#4, 1#4, 5#64⟩ 1).hostTakes = 0 + 1 ∧ ResetLow 1 (responded ⟨0#2, 0#4, 1#4, 5#64⟩ 1)) ∧
      (responded ⟨0b11#2, 0#4, 0#4, 0#64⟩ 1).resp.status = 0b11#2 ∧
      (responded ⟨0b11#2, 0#4, 0#4, 0#64⟩ 1).hostTakes = 0 + 1 := by
  decide

theorem witness_ResetEndsTheCommandAndKeepsTheStreams :
    { encoding 0x80#64 1 [.ok] with resetLine := [true] }.resetLine = true :: [] := by decide

/-- A write and a read that give next states, with the stream's answer used up. -/
theorem witness_StreamsChangeOnlyByTheirOwnTransfers :
    (stepped (encoding 0x80#64 0 [.ok])).isSome = true ∧ (encoding 0x80#64 0 [.ok]).sink = some ⟨[], [.ok]⟩ ∧
      (stepped (decoding 1 1 0#64 [.byte 5#8])).isSome = true ∧ (decoding 1 1 0#64 [.byte 5#8]).source = some ⟨[.byte 5#8], []⟩ := by
  decide

/-- A step that responds TRUNCATED, and two that respond IO_ERROR. -/
theorem witness_ErrorsComeOnlyFromFailedTransfers :
    ((decoding 1 1 0#64 [.exhausted]).respValid = false ∧
        (stepped (decoding 1 1 0#64 [.exhausted])).map (fun t => (t.respValid, t.resp.status)) = some (true, 0b01#2)) ∧
      (stepped (decoding 1 1 0#64 [.ioFail])).map (fun t => (t.respValid, t.resp.status)) = some (true, 0b10#2) ∧
      (stepped (encoding 0#64 0 [.ioFail []])).map (fun t => (t.respValid, t.resp.status)) = some (true, 0b10#2) := by
  decide

/-- An ENCODE in progress meets the invariant, and its step gives a next state. -/
theorem witness_EveryStepKeepsTheInvariant :
    StateInv (encoding 0x80#64 1 [.ok]) ∧ (stepped (encoding 0x80#64 1 [.ok])).isSome = true :=
  ⟨⟨by decide, by decide, by decide, by decide⟩, by decide⟩

/-- A state of the invariant that holds, and one whose step is refused. -/
theorem witness_OnlyHoldsAndUnattachedStreamsStopAStep :
    StateInv State.reset ∧ step State.reset = .fault .waitCommand ∧
      StateInv { State.reset with cmdPort := [commandWord 0b10#2 0#64] } ∧
      step { State.reset with cmdPort := [commandWord 0b10#2 0#64] } = .refused .noSourceAttached :=
  ⟨⟨by decide, by decide, by decide, by decide⟩, rfl, ⟨by decide, by decide, by decide, by decide⟩, rfl⟩

/-- Two states that differ in fields no command reads before writing them. -/
theorem witness_UnwrittenFieldsNeverReachTheOutside :
    SameOutside State.reset { State.reset with data := 5#64, cls := 9#4, idx := 3#4, freeCount := 7 } ∧
      State.reset ≠ { State.reset with data := 5#64, cls := 9#4, idx := 3#4, freeCount := 7 } := by
  exact ⟨⟨rfl, rfl, rfl, rfl, rfl, rfl, rfl, rfl, by decide, by decide, by decide⟩, by decide⟩

/-- Two instances, placed by a map, each with a command presented, stepped in turn. -/
theorem witness_InstancesRunAsTheyWouldAlone :
    (match Platform.run [1, 0]
        { map := [{ inst := 0, port := .command, address := 0x1000 }, { inst := 1, port := .command, address := 0x2000 }]
          instances := [presented (commandWord 0b00#2 5#64) [] [], presented (commandWord 0b11#2 5#64) [] []] } with
      | .next q => (q.instances.map State.respValid, q.map.addressOf 1 .command, q.map.addressOf 1 .sink)
      | .fault _ => ([], none, none)
      | .refused _ => ([], none, none)) = ([true, true], some 0x2000, none) := by
  decide

end Sys2Proof.Tests
end

section
/-! What a step can do to the command port and to the response slot (spec/10_state.md R25, R26), each read off the list
of a step's cases; O45 and O46 are these. -/

namespace Sys2Proof.Machine

/-! ### The end of a write step -/

@[simp] theorem afterWrite_cmdPort (s : State) : (afterWrite s).cmdPort = s.cmdPort := by
  unfold afterWrite
  split <;> rfl

@[simp] theorem afterWrite_taken (s : State) : (afterWrite s).taken = s.taken := by
  unfold afterWrite
  split <;> rfl

/-- A write changes RESP only by the response that ends the ENCODE (R90). -/
theorem afterWrite_resp_eq_or_respValid (s : State) :
    (afterWrite s).resp = s.resp ∨ (afterWrite s).respValid = true := by
  unfold afterWrite
  split
  · exact .inr rfl
  · exact .inl rfl

/-! ### The command port -/

/-- A step leaves the command port as it is, or accepts its front word in a ready block with reset low (R26). -/
theorem StepCase.cmdPort_eq_or_accepted {s t : State} (h : StepCase s t) :
    t.cmdPort = s.cmdPort ∨ (cmdReady s = true ∧ ResetLow 1 s ∧ ∃ w, s.cmdPort = w :: t.cmdPort) := by
  cases h with
  | classified hl hm hv w rest hp | encodeAccepted hl hm hv w rest hp | decodeAccepted hl hm hv w rest hp =>
    exact .inr ⟨(cmdReady_iff s).mpr ⟨hm, hv⟩, hl, w, hp⟩
  | wrote => exact .inl (by simp)
  | reset | hold | taken | writeFailed | readFailed | readLast | readMore => exact .inl rfl

/-! ### The response slot -/

/-- A step takes no response, or it takes the one that stands: RESP_VALID is cleared and RESP kept (R25). -/
theorem StepCase.taken_eq_or_response_taken {s t : State} (h : StepCase s t) :
    t.taken = s.taken ∨
      (s.respValid = true ∧ t.respValid = false ∧ t.resp = s.resp ∧ t.taken = s.taken ++ [s.resp]) := by
  cases h with
  | taken hl hm hv => exact .inr ⟨hv, rfl, rfl, rfl⟩
  | wrote => exact .inl (by simp)
  | reset | hold | classified | encodeAccepted | decodeAccepted | writeFailed | readFailed | readLast | readMore =>
    exact .inl rfl

/-- A step keeps RESP, or gives a response, or is a reset (R25, R118). -/
theorem StepCase.resp_eq_or_respValid_or_reset {s t : State} (h : StepCase s t) :
    t.resp = s.resp ∨ t.respValid = true ∨ ∃ line, s.resetLine = true :: line := by
  cases h with
  | reset line hr => exact .inr (.inr ⟨line, hr⟩)
  | classified | writeFailed | readFailed | readLast => exact .inr (.inl rfl)
  | wrote => exact (afterWrite_resp_eq_or_respValid _).imp_right .inl
  | hold | encodeAccepted | decodeAccepted | taken | readMore => exact .inl rfl

/-! ### The obligations -/

/-- Settles O45: it holds, by the cases of a step. -/
theorem commandsAreAcceptedOnlyWhenReady : Obligations.CommandsAreAcceptedOnlyWhenReady :=
  ⟨cmdReady_iff, fun _ _ h => (step_cases h).cmdPort_eq_or_accepted⟩

/-- Settles O46: it holds, by the cases of a step; respond is its own update by definition. -/
theorem responseSlotIsFilledAndTaken : Obligations.ResponseSlotIsFilledAndTaken :=
  ⟨fun _ _ _ _ _ => rfl, fun _ _ h =>
    ⟨(step_cases h).taken_eq_or_response_taken, (step_cases h).resp_eq_or_respValid_or_reset.resolve_left⟩⟩

end Sys2Proof.Machine
end

section
/-! A failed transfer ends its command (spec/20_memory.md R35, spec/60_exceptions.md R106); O37 is this, for a write and
for a read. -/

namespace Sys2Proof.Machine

/-! ### Taking an error -/

/-- Neither error is reported as success (R103, R104). -/
theorem ErrorKind.status_ne_ok (e : ErrorKind) : e.status ≠ 0b00#2 := by
  cases e <;> decide

/-- Taking an error ends the command with a response that is not OK (R106). -/
theorem raise_ends_command (e : ErrorKind) (c : Nibble) (s : State) :
    (raise e c s).mode = .idle ∧ (raise e c s).respValid = true ∧ (raise e c s).resp.status ≠ 0b00#2 :=
  ⟨raise_mode e c s, raise_respValid e c s, by simpa using e.status_ne_ok⟩

/-! ### The step that fails -/

/-- A write answered IoFail uses up that answer alone and ends the ENCODE. -/
theorem failed_write_ends_command {s : State} {held left : List Byte} {answers : List SinkAnswer} (hl : ResetLow 1 s)
    (hm : s.mode = .enc) (hp : EncodeInProgress s)
    (hs : s.sink = some { held := held, answers := .ioFail left :: answers }) :
    ∃ t, step s = .next t ∧ t.mode = .idle ∧ t.respValid = true ∧ t.resp.status ≠ 0b00#2 ∧
      t.sink.map Sink.answers = some answers ∧ t.source = s.source := by
  obtain ⟨b, hb⟩ := encode_byte hp
  obtain ⟨hmode, hvalid, hstatus⟩ := raise_ends_command .ioError s.cls
    { afterLevels 1 s with sink := some { held := held ++ left, answers := answers } }
  exact ⟨_, step_enc hm hl hb hs, hmode, hvalid, hstatus, by simp, by simp⟩

/-- A read answered Exhausted or IoFail uses up that answer alone and ends the DECODE. -/
theorem failed_read_ends_command {s : State} {a : SrcAnswer} {consumed : List Byte} {answers : List SrcAnswer}
    (hl : ResetLow 1 s) (hm : s.mode = .dec) (ha : a = .exhausted ∨ a = .ioFail)
    (hs : s.source = some { answers := a :: answers, consumed := consumed }) :
    ∃ t, step s = .next t ∧ t.mode = .idle ∧ t.respValid = true ∧ t.resp.status ≠ 0b00#2 ∧
      t.source = some { answers := answers, consumed := consumed } ∧ t.sink = s.sink := by
  obtain ⟨e, he⟩ : ∃ e : ErrorKind, (a = .exhausted ∧ e = .truncated) ∨ (a = .ioFail ∧ e = .ioError) := by
    rcases ha with rfl | rfl
    · exact ⟨.truncated, .inl ⟨rfl, rfl⟩⟩
    · exact ⟨.ioError, .inr ⟨rfl, rfl⟩⟩
  obtain ⟨hmode, hvalid, hstatus⟩ := raise_ends_command e (errorClass s)
    { afterLevels 1 s with source := some { answers := answers, consumed := consumed } }
  exact ⟨_, step_dec_fail hm hl he hs, hmode, hvalid, hstatus, by simp, by simp⟩

/-! ### The obligation -/

/-- Settles O37: it holds, since a failing answer's step takes an error at the state with that one answer used up. -/
theorem failedTransfersAreNotRepeated : Obligations.FailedTransfersAreNotRepeated := fun _ hl =>
  ⟨fun _ _ _ hm hp hs => failed_write_ends_command hl hm hp hs,
    fun _ _ _ hm ha hs => failed_read_ends_command hl hm ha hs⟩

end Sys2Proof.Machine
end

section
/-! The bits of the wire encodings (spec/30_encoding.md R52, R53): the closed form of R64, read bit by bit; O9 and O10 are
these. -/

namespace Sys2Proof.Machine

/-! ### The bits of a big-endian byte list -/

/-- Bit p of the n bytes of N, counted from bit 7 of the first byte, is the p-th of the 8n bits of N from the top (R9). -/
theorem beBytes_stream_bit (n N p : Nat) (hp : p < 8 * n) :
    (beBytes n N)[p / 8]?.map (fun b => b.getLsbD (7 - p % 8)) = some (N.testBit (8 * n - 1 - p)) := by
  have hk : p / 8 < n := by omega
  have hpos : 7 - p % 8 + 8 * (n - 1 - p / 8) = 8 * n - 1 - p := by omega
  have hbit : 7 - p % 8 < 8 := by omega
  simp only [beBytes, List.getElem?_map, List.getElem?_range hk, Option.map_some, BitVec.getLsbD_ofNat,
    Nat.testBit_div_two_pow, hpos, hbit, decide_true, Bool.true_and]

/-! ### The bits of an encoding's number -/

/-- PFX(i) before the 8i bits of the later bytes is i one-bits over 7i + 8 zero-bits (R63). -/
theorem pfx_mul_two_pow {i : Nat} (h : i ≤ 7) :
    (pfx i).toNat * 2 ^ (8 * i) = 2 ^ (7 * i + 8) * (2 ^ i - 1) := by
  interval_cases i <;> rfl

/-- A value of class i below 8 has no bit above its 7(i + 1) literal bits (R50). -/
theorem lt_two_pow_of_le_maxForClass {i n : Nat} (hi : i ≤ 7) (hn : n ≤ maxForClass i) : n < 2 ^ (7 * i + 7) := by
  have hpow : 2 ^ (7 - i) * 2 ^ (8 * i) = 2 ^ (7 * i + 7) := by rw [← pow_add]; congr 1; omega
  have := maxForClass_of_le hi
  omega

/-- The number of a class-i encoding, from the top bit down: i one-bits, a zero-bit, then the bits of x (R52). -/
theorem encoding_testBit {i p : Nat} {x : Value} (hi : i ≤ 7) (hx : x.toNat ≤ maxForClass i) :
    ((pfx i).toNat * 2 ^ (8 * i) + x.toNat).testBit (8 * (i + 1) - 1 - p) =
      if p < i then true else if p = i then false else x.getLsbD (8 * (i + 1) - 1 - p) := by
  have hlit := lt_two_pow_of_le_maxForClass hi hx
  have hlow : x.toNat < 2 ^ (7 * i + 8) := hlit.trans (Nat.pow_lt_pow_right (by norm_num) (by omega))
  rw [pfx_mul_two_pow hi, Nat.testBit_two_pow_mul_add _ hlow]
  split_ifs with hbit hp hp
  · omega
  · rw [show 8 * (i + 1) - 1 - p = 7 * i + 7 by omega]
    exact Nat.testBit_lt_two_pow hlit
  · rfl
  · rw [Nat.testBit_two_pow_sub_one, decide_eq_true_iff]
    omega
  · omega
  · omega

/-! ### The obligations -/

/-- Settles O9: it holds, the bits being those of the closed form of R64. -/
theorem bitStreamOfClassesZeroToSeven : Obligations.BitStreamOfClassesZeroToSeven := by
  intro i x j hi hj hw
  have hx := (wireInstr_some hj).2.mp hw
  rw [encode_wire hj hx, Encoded.bytes]
  refine ⟨beBytes_length _ _, fun p hp => ?_⟩
  rw [beBytes_stream_bit _ _ _ hp, encoding_testBit hi hx]

/-- Settles O10: it holds, since the encoder writes class 8 out byte by byte (R62). -/
theorem byteLayoutOfClassEight : Obligations.ByteLayoutOfClassEight := fun _ => rfl

end Sys2Proof.Machine
end

section
/-! Decoding the wire layouts (spec/30_encoding.md R54 to R62, spec/42_decoder.md R92, R93); O11 is this, class by class. -/

namespace Sys2Proof.Machine

/-- The decoder undoes the encoder on a value its class holds, whatever bytes follow (R92, R93). -/
theorem decode_encode_append {i : Nat} {x : Value} {j : Instr} {bs : List Byte} (hj : wireInstr i x = some j)
    (hx : x.toNat ≤ maxForClass i) (hbs : encode j = .wire bs) (rest : List Byte) :
    decode (.wire (bs ++ rest)) = .ok j rest := by
  rw [encode_wire hj hx, Encoded.wire.injEq] at hbs
  rw [← hbs, decode]
  exact decodeWire_beBytes hj hx rest

/-- Class 8 holds every value (R62). -/
theorem le_maxForClass_eight (x : Value) : x.toNat ≤ maxForClass 8 :=
  classify_le_iff.mp (classify_le x)

/-- Settles O11: it holds; each layout is the encoder's own text for its class, and the decoder undoes the encoder. -/
theorem classLayoutsEncodeAndDecode : Obligations.ClassLayoutsEncodeAndDecode := fun x rest =>
  ⟨fun h => ⟨rfl, decode_encode_append (i := 0) rfl h rfl rest⟩,
    fun h => ⟨rfl, decode_encode_append (i := 1) rfl h rfl rest⟩,
    fun h => ⟨rfl, decode_encode_append (i := 2) rfl h rfl rest⟩,
    fun h => ⟨rfl, decode_encode_append (i := 3) rfl h rfl rest⟩,
    fun h => ⟨rfl, decode_encode_append (i := 4) rfl h rfl rest⟩,
    fun h => ⟨rfl, decode_encode_append (i := 5) rfl h rfl rest⟩,
    fun h => ⟨rfl, decode_encode_append (i := 6) rfl h rfl rest⟩,
    fun h => ⟨rfl, decode_encode_append (i := 7) rfl h rfl rest⟩,
    rfl, decode_encode_append (i := 8) rfl (le_maxForClass_eight x) rfl rest⟩

end Sys2Proof.Machine
end

section
/-! Accepting a command word (spec/30_encoding.md R67 to R70): a step reads the word only through the decoder, so bits
that the decoder ignores have no effect; O23 is this. -/

namespace Sys2Proof.Machine

/-- A ready block with reset low runs the command of the word presented, which leaves the port (R70). -/
theorem step_accept {s : State} {w : CommandWord} {rest : List CommandWord} (hr : cmdReady s = true)
    (hl : ResetLow 1 s) (hp : s.cmdPort = w :: rest) :
    step s = exec (decodeCommand w) { afterLevels 1 s with cmdPort := rest } := by
  rw [step_of_low hl, blockMove_ready (s := afterLevels 1 s) hr, acceptCommand, afterLevels_cmdPort, hp]

/-- Two words of one command are accepted alike. -/
theorem step_eq_of_decodeCommand_eq {s : State} {v w : CommandWord} (rest : List CommandWord)
    (hr : cmdReady s = true) (hl : ResetLow 1 s) (h : decodeCommand v = decodeCommand w) :
    step { s with cmdPort := v :: rest } = step { s with cmdPort := w :: rest } := by
  have accepted (u : CommandWord) : step { s with cmdPort := u :: rest } =
      exec (decodeCommand u) { afterLevels 1 s with cmdPort := rest } :=
    step_accept (s := { s with cmdPort := u :: rest }) hr hl rfl
  rw [accepted, accepted, h]

/-! ### The command of each OP (R68, R69) -/

@[simp] theorem decodeCommand_classify (a : Value) : decodeCommand (commandWord 0b00#2 a) = .classify a :=
  decodeCommand_commandWord 0b00#2 a

@[simp] theorem decodeCommand_encode (a : Value) : decodeCommand (commandWord 0b01#2 a) = .encode a :=
  decodeCommand_commandWord 0b01#2 a

@[simp] theorem decodeCommand_decode (a : Value) : decodeCommand (commandWord 0b10#2 a) = .decode :=
  decodeCommand_commandWord 0b10#2 a

@[simp] theorem decodeCommand_pclass (a : Value) :
    decodeCommand (commandWord 0b11#2 a) = .pclass (a.extractLsb' 0 8) :=
  decodeCommand_commandWord 0b11#2 a

/-! ### The assembler -/

/-- The assembler writes PCLASS's byte in ARG[7:0] and 0 above it (R69, R76). -/
theorem assemble_pclass {c : Nat} (h : c < 256) :
    assemble (.pclass c) = some (commandWord 0b11#2 ((BitVec.ofNat 8 c).setWidth 64)) := by
  have hword : (BitVec.ofNat 8 c).setWidth 64 = BitVec.ofNat 64 c := by
    apply BitVec.eq_of_toNat_eq
    rw [BitVec.toNat_setWidth, BitVec.toNat_ofNat, BitVec.toNat_ofNat, Nat.mod_eq_of_lt (a := c) h]
  rw [hword]
  exact if_pos h

/-! ### The obligation -/

/-- Settles O23: it holds, since words that differ in ignored bits alone decode to one command. -/
theorem commandWordOperandsAndIgnoredBits : Obligations.CommandWordOperandsAndIgnoredBits := by
  refine ⟨fun x => ⟨decodeCommand_classify x, decodeCommand_encode x, decodeCommand_decode x, decodeCommand_pclass x⟩,
    fun s rest a b hr hl => ⟨?_, fun hab => ?_⟩, rfl, fun c hc => assemble_pclass hc⟩
  · exact step_eq_of_decodeCommand_eq rest hr hl (by simp)
  · exact step_eq_of_decodeCommand_eq rest hr hl (by simp [hab])

end Sys2Proof.Machine
end

section
/-! The two class tests and the commands that answer them (spec/40_classifier.md R77, R80, R83, R84): CLASSIFY and
PCLASS are one response, the class of their operand, given in the acceptance step; O1, O5, O27 and O28 are these. -/

namespace Sys2Proof.Machine

/-! ### The class tests -/

/-- Class 8 holds what is above the 56 literal bits of class 7 (R77). -/
theorem classify_eq_eight_iff (x : Value) : classify x = 8 ↔ 2 ^ 56 - 1 < x.toNat := by
  have hle := classify_le x
  have h7 : classify x ≤ 7 ↔ x.toNat ≤ 2 ^ 56 - 1 := classify_le_iff
  omega

/-- A byte is above every threshold tested before its class (R80). -/
theorem thr_lt_of_lt_prefixClass {c : Byte} {i : Nat} (h : i < prefixClass c) : (thr i).toNat < c.toNat := by
  have := (firstClass_spec fun i => decide (c.toNat ≤ (thr i).toNat)).2.2 i h
  simpa using this

/-- Only the all-ones byte is above every threshold (R80). -/
theorem prefixClass_eq_eight_iff (c : Byte) : prefixClass c = 8 ↔ c = 0xFF#8 := by
  constructor
  · intro h
    have hlow := (prefixClass_bounds c).1
    rw [h, show pfx 8 = 0xFF#8 from rfl] at hlow
    bv_omega
  · rintro rfl
    rfl

/-! ### The masks of a first byte -/

/-- HDR(i) and LIT(i) are complementary masks (R63). -/
theorem hdr_eq_not_lit {i : Nat} (h : i ≤ 8) : hdr i = ~~~lit i := by
  interval_cases i <;> rfl

/-- THR(i) is PFX(i) with every literal bit set (R63). -/
theorem thr_toNat_eq_pfx_add_lit {i : Nat} (h : i ≤ 8) : (thr i).toNat = (pfx i).toNat + (lit i).toNat := by
  interval_cases i <;> rfl

/-- The bits of a byte outside a mask and those inside it add up to the byte. -/
theorem toNat_and_not_add_toNat_and (c m : Byte) : (c &&& ~~~m).toNat + (c &&& m).toNat = c.toNat := by
  have hdisjoint : (c &&& ~~~m) &&& (c &&& m) = 0#8 := by
    ext k hk
    cases hm : m[k] <;> simp [hm]
  have hunion : (c &&& ~~~m) ||| (c &&& m) = c := by
    ext k hk
    cases hm : m[k] <;> simp [hm]
  rw [← BitVec.toNat_add_of_and_eq_zero hdisjoint, BitVec.add_eq_or_of_and_eq_zero _ _ hdisjoint, hunion]

/-- A byte whose prefix and terminator bits are PFX(i) has class i (R81): its literal bits put it between PFX(i) and
THR(i). -/
theorem prefixClass_eq_of_and_hdr {c : Byte} {i : Nat} (h8 : i ≤ 8) (hc : c &&& hdr i = pfx i) :
    prefixClass c = i := by
  have hsum : (pfx i).toNat + (c &&& lit i).toNat = c.toNat := by
    rw [← hc, hdr_eq_not_lit h8, toNat_and_not_add_toNat_and]
  have hlit : (c &&& lit i).toNat ≤ (lit i).toNat := Nat.and_le_right
  have hthr := thr_toNat_eq_pfx_add_lit h8
  exact prefixClass_eq_of_bounds i h8 c (by omega) (by omega)

/-! ### The meanings -/

/-- CLASSIFY of a value between the bounds of class i (R83). -/
theorem exec_classify_of_bounds {x : Value} {i : Nat} (h8 : i ≤ 8) (hmin : minForClass i ≤ x.toNat)
    (hmax : x.toNat ≤ maxForClass i) (s : State) : exec (.classify x) s = .next (respondClass i s) := by
  have hclass : classify x = i := (classify_eq_iff h8).mpr ⟨hmin, hmax⟩
  rw [← hclass]
  rfl

/-- PCLASS of a byte with the prefix and terminator bits of class i (R84). -/
theorem exec_pclass_of_and_hdr {c : Byte} {i : Nat} (h8 : i ≤ 8) (hc : c &&& hdr i = pfx i) (s : State) :
    exec (.pclass c) s = .next (respondClass i s) := by
  have hclass : prefixClass c = i := prefixClass_eq_of_and_hdr h8 hc
  rw [← hclass]
  rfl

/-! ### The obligations -/

/-- Settles O1: it holds; the class is at most i exactly where the value fits class i. -/
theorem classifyIsTheSmallestFittingClass : Obligations.ClassifyIsTheSmallestFittingClass := fun x =>
  ⟨classify_le x, le_maxForClass_classify x, fun _ _ hx => classify_le_iff.mpr hx, classify_eq_eight_iff x⟩

/-- Settles O5: it holds; the byte is above the thresholds tested before its class and not above its own. -/
theorem prefixClassTestsTheThresholds : Obligations.PrefixClassTestsTheThresholds :=
  ⟨by decide, fun c => ⟨prefixClass_le c, fun _ hi => thr_lt_of_lt_prefixClass hi, fun _ => (prefixClass_bounds c).2,
    prefixClass_eq_eight_iff c⟩⟩

/-- Settles O27: it holds; CLASSIFY only responds, and a ready block's step runs it. -/
theorem classifyRespondsInItsAcceptanceStep : Obligations.ClassifyRespondsInItsAcceptanceStep := by
  intro x i h8 hmin hmax
  refine ⟨exec_classify_of_bounds h8 hmin hmax, fun s rest hr hl hp => ?_⟩
  rw [step_accept hr hl hp, decodeCommand_classify]
  exact exec_classify_of_bounds h8 hmin hmax _

/-- Settles O28: it holds; PCLASS only responds, and the decoder reads the low byte of ARG alone. -/
theorem pclassRespondsInItsAcceptanceStep : Obligations.PclassRespondsInItsAcceptanceStep := by
  intro c i h8 hc
  refine ⟨exec_pclass_of_and_hdr h8 hc, fun s rest arg harg hr hl hp => ?_⟩
  rw [step_accept hr hl hp, decodeCommand_pclass, harg]
  exact exec_pclass_of_and_hdr h8 hc _

end Sys2Proof.Machine
end

section
/-! The two pure decoders on every byte list (spec/42_decoder.md R92, R93): too few bytes are Truncated, any others give
R93's value; O22 is this. -/

namespace Sys2Proof.Machine

/-! ### R93's value as a number -/

/-- LIT(i) keeps the low 7 - i bits of a byte (R63). -/
theorem and_lit_toNat_eq_mod (c : Byte) {i : Nat} (h : i ≤ 7) : (c &&& lit i).toNat = c.toNat % 2 ^ (7 - i) := by
  have hlit : (lit i).toNat = 2 ^ (7 - i) - 1 := by interval_cases i <;> rfl
  rw [BitVec.toNat_and, hlit, Nat.and_two_pow_sub_one_eq_mod]

/-- The literal bits of the first byte stand above the literal bytes: c is PFX(i) + (c & LIT(i)), and the decoder drops
the prefix. -/
theorem literalValue_toNat_eq_add (c : Byte) (bs : List Byte) (h : bs.length = prefixClass c) :
    (literalValue (prefixClass c) c bs).toNat =
      (c &&& lit (prefixClass c)).toNat * 2 ^ (8 * prefixClass c) + beNat bs := by
  have hpow : (256 : Nat) ^ bs.length = 2 ^ (8 * prefixClass c) := by
    rw [h, show (256 : Nat) = 2 ^ 8 from rfl, ← pow_mul]
  have hv := (literalValue_toNat c bs h).1
  rw [beNat_cons, hpow, ← and_lit_toNat c, Nat.add_mul] at hv
  omega

/-- R93, with no literal bits in the first byte of class 8. -/
theorem literalValue_toNat_eq_mod (c : Byte) (bs : List Byte) (h : bs.length = prefixClass c) :
    (literalValue (prefixClass c) c bs).toNat =
      (if prefixClass c ≤ 7 then c.toNat % 2 ^ (7 - prefixClass c) * 2 ^ (8 * prefixClass c) else 0) + beNat bs := by
  rw [literalValue_toNat_eq_add c bs h]
  split_ifs with h7
  · rw [and_lit_toNat_eq_mod c h7]
  · have hlit : lit (prefixClass c) = 0#8 := if_neg h7
    simp [hlit]

/-! ### What the decoders answer (R92) -/

theorem decodeBytes_of_length_lt {c : Byte} {bs : List Byte} (h : bs.length < prefixClass c) :
    decodeBytes (c :: bs) = .truncated (prefixClass c) (bs.length + 1) :=
  if_pos h

theorem decodeWire_of_length_lt {c : Byte} {bs : List Byte} (h : bs.length < prefixClass c) :
    decodeWire (c :: bs) = .truncated (prefixClass c) (bs.length + 1) :=
  if_pos h

theorem decodeBytes_of_le_length {c : Byte} {bs : List Byte} (h : prefixClass c ≤ bs.length) :
    decodeBytes (c :: bs) =
      .ok (literalValue (prefixClass c) c (bs.take (prefixClass c))) (prefixClass c + 1) :=
  if_neg h.not_gt

theorem decodeWire_of_le_length {c : Byte} {bs : List Byte} {i : Instr} (h : prefixClass c ≤ bs.length)
    (hi : wireInstr (prefixClass c) (literalValue (prefixClass c) c (bs.take (prefixClass c))) = some i) :
    decodeWire (c :: bs) = .ok i (bs.drop (prefixClass c)) := by
  rw [decodeWire, if_neg h.not_gt, hi]

/-! ### The obligation -/

/-- Settles O22: it holds; the decoders test only the number of bytes, and every class has a wire instruction. The
claim's bigEndianNat and the laws' beNat are the same fold by definition. -/
theorem onlyTooFewBytesAreRejected : Obligations.OnlyTooFewBytesAreRejected := by
  refine ⟨rfl, rfl, fun c bs => ⟨fun h => ⟨decodeWire_of_length_lt h, decodeBytes_of_length_lt h⟩, fun h => ?_⟩⟩
  obtain ⟨i, hi⟩ := wireInstr_isSome (prefixClass_le c)
    (literalValue (prefixClass c) c (bs.take (prefixClass c)))
  exact ⟨_, i, hi, decodeWire_of_le_length h hi, decodeBytes_of_le_length h,
    literalValue_toNat_eq_mod c _ (List.length_take_of_le h)⟩

end Sys2Proof.Machine
end

section
/-! The response of every failing command (spec/60_exceptions.md R105), for the whole run of an ENCODE or a DECODE from its
acceptance to the failing transfer; O42 is these rows together. -/

namespace Sys2Proof.Machine

/-! ### Runs, one part after another -/

/-- One more step at the end of a run. -/
theorem run_snoc {n : Nat} {s t u : State} (hr : run n s = .next t) (ht : step t = .next u) :
    run (n + 1) s = .next u := by
  rw [run_add, hr]
  exact run_succ 0 ht

/-- Reset low for m + n steps is low for the last n of them. -/
theorem resetLow_afterLevels {m n : Nat} {s : State} (h : ResetLow (m + n) s) : ResetLow n (afterLevels m s) := by
  intro b hb
  rw [afterLevels_resetLine, List.take_drop] at hb
  exact h b (List.mem_of_mem_drop hb)

/-! ### Acceptance of a stream command -/

/-- The state once an ENCODE x has been accepted (R89). -/
def encodeAccepted (x : Value) (rest : List CommandWord) (s : State) : State :=
  { afterLevels 1 s with
    cmdPort := rest, data := x, cls := BitVec.ofNat 4 (classify x), idx := 0#4, mode := .enc }

/-- The state once a DECODE has been accepted (R98). -/
def decodeAccepted (rest : List CommandWord) (s : State) : State :=
  { afterLevels 1 s with cmdPort := rest, idx := 0#4, mode := .dec }

theorem step_encodeAccepted {x : Value} {s : State} {rest : List CommandWord} {snk : Sink} (hr : cmdReady s = true)
    (hl : ResetLow 1 s) (hp : s.cmdPort = commandWord 0b01#2 x :: rest) (hs : s.sink = some snk) :
    step s = .next (encodeAccepted x rest s) := by
  rw [step_accept hr hl hp, decodeCommand_encode]
  simp [exec, execEncode, encodeAccepted, hs]

theorem step_decodeAccepted {arg : Value} {s : State} {rest : List CommandWord} {src : Source}
    (hr : cmdReady s = true) (hl : ResetLow 1 s) (hp : s.cmdPort = commandWord 0b10#2 arg :: rest)
    (hs : s.source = some src) : step s = .next (decodeAccepted rest s) := by
  rw [step_accept hr hl hp, decodeCommand_decode]
  simp [exec, execDecode, decodeAccepted, hs]

/-! ### A failing write -/

/-- An ENCODE whose write k + 1 fails takes the error at IDX = k, with e0 to e(k-1) and what the failing write leaves on
the sink (R90, R106). -/
theorem run_encode_write_fails {x : Value} {k : Nat} {s : State} {rest : List CommandWord} {held left : List Byte}
    {answers : List SinkAnswer} (hk : k ≤ classify x) (hr : cmdReady s = true)
    (hp : s.cmdPort = commandWord 0b01#2 x :: rest)
    (hs : s.sink = some { held := held, answers := List.replicate k .ok ++ .ioFail left :: answers })
    (hl : ResetLow (k + 2) s) :
    run (k + 2) s = .next (raise .ioError (BitVec.ofNat 4 (classify x))
      { encodeAccepted x rest s with
        resetLine := s.resetLine.drop (k + 2)
        idx := BitVec.ofNat 4 k
        sink := some { held := held ++ (encodeValue x).take k ++ left, answers := answers } }) := by
  obtain ⟨hl1, hlk⟩ := resetLow_succ hl
  have hwrites := run_writes x k 0 (encodeAccepted x rest s) held (.ioFail left :: answers) rfl rfl rfl rfl
    (by omega) hs (resetLow_mono hlk (by omega))
  have hbyte : (encodeValue x)[(BitVec.ofNat 4 (0 + k)).toNat]? =
      some ((encodeValue x)[k]'(by rw [encodeValue_length]; omega)) := by
    have hidx : (BitVec.ofNat 4 (0 + k)).toNat = k := by
      have := classify_le x
      rw [BitVec.toNat_ofNat]
      omega
    rw [hidx, List.getElem?_eq_getElem]
  rw [run_succ (k + 1) (step_encodeAccepted hr hl1 hp hs)]
  refine (run_snoc hwrites (step_enc rfl ?_ hbyte rfl)).trans ?_
  · exact resetLow_afterLevels hlk
  · simp [encodeAccepted, afterLevels, raise, respond]

/-! ### A failing read -/

/-- A run that reaches a DECODE whose next read fails goes on to the error's response: the class found so far, the bytes
read so far and VALUE 0 (R99, R105). -/
theorem run_then_read_fails {n : Nat} {s t : State} {a : SrcAnswer} {status : Status} {more : List SrcAnswer}
    {consumed : List Byte} (ha : (a = .exhausted ∧ status = 0b01#2) ∨ (a = .ioFail ∧ status = 0b10#2))
    (hr : run n s = .next t) (hm : t.mode = .dec) (hl : ResetLow 1 t)
    (hs : t.source = some { answers := a :: more, consumed := consumed }) :
    ∃ u, run (n + 1) s = .next u ∧ u.respValid = true ∧
      u.resp = { status := status, cls := errorClass t, count := t.idx, value := 0#64 } := by
  obtain ⟨e, he, rfl⟩ : ∃ e : ErrorKind,
      ((a = .exhausted ∧ e = .truncated) ∨ (a = .ioFail ∧ e = .ioError)) ∧ e.status = status := by
    rcases ha with ⟨rfl, rfl⟩ | ⟨rfl, rfl⟩
    · exact ⟨.truncated, .inl ⟨rfl, rfl⟩, rfl⟩
    · exact ⟨.ioError, .inr ⟨rfl, rfl⟩, rfl⟩
  exact ⟨_, run_snoc hr (step_dec_fail hm hl he hs), raise_respValid .., raise_resp ..⟩

/-- Before any byte has been read an error has CLASS 0. -/
theorem errorClass_decodeAccepted (rest : List CommandWord) (s : State) :
    errorClass (decodeAccepted rest s) = 0#4 :=
  if_pos rfl

/-- Once a byte has been read, and not yet all of them, an error has the class of the first. -/
theorem errorClass_midRead {c : Byte} {bs : List Byte} (h : bs.length < prefixClass c) (answers : List SrcAnswer)
    (consumed : List Byte) (s : State) :
    errorClass (midRead c bs answers consumed s) = BitVec.ofNat 4 (prefixClass c) := by
  refine if_neg fun hidx => ?_
  have hzero := congrArg BitVec.toNat hidx
  have := prefixClass_le c
  simp only [midRead, BitVec.toNat_ofNat] at hzero
  omega

/-- A DECODE whose first read fails (R105). -/
theorem decode_first_read_fails {s : State} {arg : Value} {rest : List CommandWord} {a : SrcAnswer} {status : Status}
    {more : List SrcAnswer} {consumed : List Byte}
    (ha : (a = .exhausted ∧ status = 0b01#2) ∨ (a = .ioFail ∧ status = 0b10#2)) (hr : cmdReady s = true)
    (hp : s.cmdPort = commandWord 0b10#2 arg :: rest)
    (hs : s.source = some { answers := a :: more, consumed := consumed }) (hl : ResetLow 2 s) :
    ∃ t, run 2 s = .next t ∧ t.respValid = true ∧
      t.resp = { status := status, cls := 0#4, count := 0#4, value := 0#64 } := by
  obtain ⟨hl1, hl2⟩ := resetLow_succ hl
  have hfail := run_then_read_fails ha (run_succ 0 (step_decodeAccepted hr hl1 hp hs)) rfl hl2 hs
  rwa [errorClass_decodeAccepted] at hfail

/-- A DECODE whose read fails after the first byte c and the literal bytes bs, fewer than c's class asks for (R105). -/
theorem decode_later_read_fails {s : State} {arg : Value} {rest : List CommandWord} {a : SrcAnswer} {status : Status}
    {more : List SrcAnswer} {consumed : List Byte} {c : Byte} {bs : List Byte}
    (ha : (a = .exhausted ∧ status = 0b01#2) ∨ (a = .ioFail ∧ status = 0b10#2)) (hr : cmdReady s = true)
    (hp : s.cmdPort = commandWord 0b10#2 arg :: rest) (hb : bs.length < prefixClass c)
    (hs : s.source = some { answers := (c :: bs).map .byte ++ a :: more, consumed := consumed })
    (hl : ResetLow (bs.length + 3) s) :
    ∃ t, run (bs.length + 3) s = .next t ∧ t.respValid = true ∧
      t.resp = { status := status, cls := BitVec.ofNat 4 (prefixClass c),
                 count := BitVec.ofNat 4 (bs.length + 1), value := 0#64 } := by
  obtain ⟨hl1, hl2⟩ := resetLow_succ hl
  have hreads := run_reads c bs (decodeAccepted rest s) (a :: more) consumed hb rfl rfl hs
    (resetLow_mono hl2 (by omega))
  have hfail := run_then_read_fails ha hreads rfl (resetLow_afterLevels hl2) rfl
  rw [errorClass_midRead hb] at hfail
  rwa [run_succ (bs.length + 2) (step_decodeAccepted hr hl1 hp hs)]

/-! ### The obligation -/

/-- Settles O42: it holds, since each run ends in taking the error at an IDX that has counted the transfers so far. -/
theorem responseFieldsOnAnError : Obligations.ResponseFieldsOnAnError :=
  ⟨fun _ _ _ _ _ _ _ hk hr hp hs hl =>
      ⟨_, run_encode_write_fails hk hr hp hs hl, raise_respValid .., raise_resp ..⟩,
    fun _ _ _ _ _ _ _ ha hr hp =>
      ⟨decode_first_read_fails ha hr hp, fun _ _ hb => decode_later_read_fails ha hr hp hb⟩⟩

end Sys2Proof.Machine
end

section
/-! Reset in the middle of a run (spec/70_reset_and_hazards.md R118, R120): an asserted reset is the whole step, and it
leaves a ready block, so a word still on the command port is accepted once reset is low; O49 is this. -/

namespace Sys2Proof.Machine

/-- A block that has been reset is ready for a command (R118). -/
@[simp] theorem cmdReady_applyReset (s : State) : cmdReady (applyReset s) = true :=
  (cmdReady_iff _).mpr ⟨applyReset_mode s, applyReset_respValid s⟩

/-- A word that waited on the command port through a reset is accepted by the next step with reset low (R120). -/
theorem step_applyReset {s : State} {w : CommandWord} {rest : List CommandWord} (hp : s.cmdPort = w :: rest)
    (hl : ResetLow 1 (applyReset s)) :
    step (applyReset s) = exec (decodeCommand w) { afterLevels 1 (applyReset s) with cmdPort := rest } :=
  step_accept (cmdReady_applyReset s) hl ((applyReset_cmdPort s).trans hp)

/-- Settles O49: it holds; the step is the reset itself, and the block it leaves accepts the waiting word. -/
theorem resetEndsTheCommandAndKeepsTheStreams : Obligations.ResetEndsTheCommandAndKeepsTheStreams := fun s line h =>
  have hstep : step s = .next (applyReset { s with resetLine := line }) := step_of_reset h
  ⟨_, hstep, applyReset_mode _, applyReset_respValid _, cmdReady_applyReset _, applyReset_resetLine _,
    applyReset_cmdPort _, applyReset_source _, applyReset_sink _, applyReset_taken _, applyReset_hostTakes _,
    fun _ _ hp hl => step_applyReset (s := { s with resetLine := line }) hp hl⟩

end Sys2Proof.Machine
end

section
/-! The pure coder (spec/30_encoding.md R50, R64, R66, spec/40_classifier.md R78, R79, R82, spec/41_encoder.md R86 to R88,
spec/42_decoder.md R94 to R97): the byte lists that decode to x are the class-i encodings of x, for the classes that hold
it, with anything after them. O16, O20, O21, O2, O3, O4, O8, O12 to O15 and O17 to O19 are read off this. -/

namespace Sys2Proof.Machine

open Sys2Proof.Claims

/-! ### The encodings of a value -/

/-- The class-i encoding of x: the (i+1)-byte big-endian form of PFX(i)*2^(8*i) + x (R64). -/
def classBytes (i : Nat) (x : Value) : List Byte := beBytes (i + 1) ((pfx i).toNat * 2 ^ (8 * i) + x.toNat)

@[simp] theorem classBytes_length (i : Nat) (x : Value) : (classBytes i x).length = i + 1 := beBytes_length _ _

theorem encodeValue_eq_classBytes (x : Value) : encodeValue x = classBytes (classify x) x := encodeValue_eq x

theorem encode_eq_classBytes {i : Nat} {x : Value} {j : Instr} (hj : wireInstr i x = some j)
    (hx : x.toNat ≤ maxForClass i) : encode j = .wire (classBytes i x) := encode_wire hj hx

/-- An encoding of class i is a first byte of prefix class i and i literal bytes, whose value is x (R82, R93). -/
theorem classBytes_eq_cons {i : Nat} {x : Value} (hi : i ≤ 8) (hx : x.toNat ≤ maxForClass i) :
    ∃ c bs, classBytes i x = c :: bs ∧ bs.length = i ∧ prefixClass c = i ∧ literalValue i c bs = x := by
  obtain ⟨-, c, bs, hcb, -, -⟩ := beBytes_cons hi hx
  obtain ⟨hlen, hc, hv⟩ := literalValue_beBytes hi hx hcb
  exact ⟨c, bs, hcb, hlen, hc, hv⟩

/-- Enough bytes for the class of the first are an encoding of the value they hold, and what follows it. -/
theorem cons_eq_classBytes_append {c : Byte} {bs : List Byte} (h : prefixClass c ≤ bs.length) :
    c :: bs = classBytes (prefixClass c) (literalValue (prefixClass c) c (bs.take (prefixClass c))) ++
        bs.drop (prefixClass c) ∧
      (literalValue (prefixClass c) c (bs.take (prefixClass c))).toNat ≤ maxForClass (prefixClass c) := by
  have hlen : (bs.take (prefixClass c)).length = prefixClass c := List.length_take_of_le h
  refine ⟨?_, (literalValue_toNat c _ hlen).2⟩
  rw [classBytes, ← cons_eq_beBytes c _ hlen, List.cons_append, List.take_append_drop]

/-! ### What the decoders accept -/

/-- decodeBytes gives x exactly on the encodings of x, whatever follows, and counts their bytes. -/
theorem decodeBytes_eq_ok_iff {bs : List Byte} {x : Value} {n : Nat} :
    decodeBytes bs = .ok x n ↔
      ∃ i ≤ 8, x.toNat ≤ maxForClass i ∧ n = i + 1 ∧ ∃ rest, bs = classBytes i x ++ rest := by
  constructor
  · intro h
    rcases bs with _ | ⟨c, bs⟩
    · cases h
    · rcases Nat.lt_or_ge bs.length (prefixClass c) with hlt | hge
      · rw [decodeBytes_of_length_lt hlt] at h
        cases h
      · rw [decodeBytes_of_le_length hge] at h
        obtain ⟨heq, hmax⟩ := cons_eq_classBytes_append hge
        cases h
        exact ⟨_, prefixClass_le c, hmax, rfl, _, heq⟩
  · rintro ⟨i, hi, hx, rfl, rest, rfl⟩
    exact decodeBytes_beBytes hi hx rest

/-- What the wire decoder reads is an encoding of the instruction's value. -/
theorem eq_classBytes_of_decodeWire {bs rest : List Byte} {j : Instr} (h : decodeWire bs = .ok j rest) :
    ∃ i x, wireInstr i x = some j ∧ x.toNat ≤ maxForClass i ∧ bs = classBytes i x ++ rest := by
  rcases bs with _ | ⟨c, bs⟩
  · cases h
  · rcases Nat.lt_or_ge bs.length (prefixClass c) with hlt | hge
    · rw [decodeWire_of_length_lt hlt] at h
      cases h
    · obtain ⟨i, hi⟩ := wireInstr_isSome (prefixClass_le c) (literalValue (prefixClass c) c (bs.take (prefixClass c)))
      rw [decodeWire_of_le_length hge hi] at h
      obtain ⟨heq, hmax⟩ := cons_eq_classBytes_append hge
      cases h
      exact ⟨_, _, hi, hmax, heq⟩

/-- An instruction is a command, whose word decodes to it, or the wire instruction of some class and value. -/
theorem command_or_wire (i : Instr) :
    (∃ w, encode i = .command w ∧ decodeCommand w = i) ∨ ∃ k x, wireInstr k x = some i := by
  cases i with
  | classify x => exact .inl ⟨_, rfl, decodeCommand_classify x⟩
  | encode x => exact .inl ⟨_, rfl, decodeCommand_encode x⟩
  | decode => exact .inl ⟨_, rfl, decodeCommand_decode 0#64⟩
  | pclass c =>
    refine .inl ⟨_, rfl, ?_⟩
    rw [decodeCommand_pclass, BitVec.extractLsb'_setWidth_of_le (by omega)]
    simp
  | vliC0 x => exact .inr ⟨0, x, rfl⟩
  | vliC1 x => exact .inr ⟨1, x, rfl⟩
  | vliC2 x => exact .inr ⟨2, x, rfl⟩
  | vliC3 x => exact .inr ⟨3, x, rfl⟩
  | vliC4 x => exact .inr ⟨4, x, rfl⟩
  | vliC5 x => exact .inr ⟨5, x, rfl⟩
  | vliC6 x => exact .inr ⟨6, x, rfl⟩
  | vliC7 x => exact .inr ⟨7, x, rfl⟩
  | vliC8 x => exact .inr ⟨8, x, rfl⟩

/-! ### The round trips -/

/-- R97, with any bytes following. -/
theorem decodeBytes_encodeValue (x : Value) (rest : List Byte) :
    decodeBytes (encodeValue x ++ rest) = .ok x (classify x + 1) :=
  decodeBytes_eq_ok_iff.mpr ⟨classify x, classify_le x, le_maxForClass_classify x, rfl, rest,
    by rw [encodeValue_eq_classBytes]⟩

/-- Settles O16: it holds, since encode(x) is an encoding of x. -/
theorem decodingInvertsEncoding : Obligations.DecodingInvertsEncoding :=
  ⟨decodeBytes_encodeValue, by decide, by decide⟩

/-- Settles O20: it holds; a command's fields are what was put there, and a wire instruction is laid out as its class's
encoding. -/
theorem decodeOfEncodeIsTheInstruction : Obligations.DecodeOfEncodeIsTheInstruction := by
  intro i hwf
  rcases command_or_wire i with ⟨w, hw, hdec⟩ | ⟨k, x, hj⟩
  · rw [hw]
    exact ⟨by rw [decode, hdec], fun bs rest h => nomatch h⟩
  · have hx := (wireInstr_some hj).2.mp hwf
    refine ⟨?_, fun bs rest hbs => decode_encode_append hj hx hbs rest⟩
    have henc := encode_eq_classBytes hj hx
    rw [henc]
    simpa using decode_encode_append hj hx henc []

/-- Settles O21: it holds, since the bytes read are the encoding of their value in the class of the first. -/
theorem decodedBytesAreTheEncoding : Obligations.DecodedBytesAreTheEncoding := by
  intro bs rest j h
  obtain ⟨i, x, hj, hx, rfl⟩ := eq_classBytes_of_decodeWire h
  exact ⟨(wireInstr_some hj).2.mpr hx, _, encode_eq_classBytes hj hx, rfl⟩

/-! ### Canonical encodings (R13, R86, R88, R66) -/

/-- An encoding of x that has nothing after it, of the length of class i, is the one of class i. -/
theorem eq_classBytes_of_decodeBytes {bs : List Byte} {x : Value} {i : Nat} (h : decodeBytes bs = .ok x (i + 1))
    (hlen : bs.length = i + 1) : bs = classBytes i x := by
  obtain ⟨k, -, -, hk, rest, rfl⟩ := decodeBytes_eq_ok_iff.mp h
  obtain rfl : i = k := by omega
  rw [List.length_append, classBytes_length] at hlen
  rw [List.eq_nil_of_length_eq_zero (show rest.length = 0 by omega), List.append_nil]

/-- No encoding of x is shorter than its class. -/
theorem classify_lt_of_decodeBytes {bs : List Byte} {x : Value} {n : Nat} (h : decodeBytes bs = .ok x n) :
    classify x < n := by
  obtain ⟨i, -, hx, rfl, -⟩ := decodeBytes_eq_ok_iff.mp h
  have : classify x ≤ i := classify_le_iff.mpr hx
  omega

/-- Settles O15: it holds, since x has one encoding in each class that holds it, and classify(x) is the least of these. -/
theorem encoderIsCanonicalAndMinimal : Obligations.EncoderIsCanonicalAndMinimal := by
  refine fun x => ⟨encodeValue_length x, fun bs h => ⟨classify_lt_of_decodeBytes h, fun hlen => ?_⟩⟩
  rw [encodeValue_eq_classBytes]
  exact eq_classBytes_of_decodeBytes (hlen ▸ h) hlen

/-- Settles O17: it holds, since decodeBytes reads the first value off the stream. -/
theorem encodingsAreSelfDelimiting : Obligations.EncodingsAreSelfDelimiting := by
  intro x y r t h
  have hdec := decodeBytes_encodeValue x r
  rw [h, decodeBytes_encodeValue y t] at hdec
  cases hdec
  exact ⟨rfl, List.append_cancel_left h⟩

/-- Settles O19: it holds, since the encoding of class i decodes to x exactly where class i holds x. -/
theorem oneEncodingInEachClassFromItsOwn : Obligations.OneEncodingInEachClassFromItsOwn := by
  intro x i hi
  constructor
  · intro hc
    exact ⟨classBytes i x, decodeBytes_eq_ok_iff.mpr ⟨i, hi, classify_le_iff.mp hc, rfl, [], by simp⟩,
      classBytes_length i x, fun cs h hlen => eq_classBytes_of_decodeBytes h hlen⟩
  · intro hc cs h
    have := classify_lt_of_decodeBytes h
    omega

/-- Settles O18: it holds; decodeBytes takes the bytes the class asks for, and the decoder drops the prefix. The claim's
bigEndianNat and the laws' beNat are the same fold by definition. -/
theorem everySequenceOfClassLengthDecodes : Obligations.EverySequenceOfClassLengthDecodes := by
  intro c bs rest hlen
  obtain ⟨hsum, hmax⟩ := literalValue_toNat c bs hlen
  refine ⟨literalValue (prefixClass c) c bs, ?_, hsum, hmax, classify_le_iff.mpr hmax⟩
  rw [List.cons_append, decodeBytes_of_le_length (by simp [hlen]), List.take_left' hlen]

/-! ### The layouts (R64, R82, R85, R87) -/

/-- Settles O12: it holds, since the layouts are the big-endian form. -/
theorem closedFormOfEveryEncoding : Obligations.ClosedFormOfEveryEncoding := by
  intro i x j hj hwf
  rw [encode_eq_classBytes hj ((wireInstr_some hj).2.mp hwf)]
  rfl

/-- Settles O13: it holds, since both texts are the big-endian form. -/
theorem encoderEmitsTheLayoutOfItsClass : Obligations.EncoderEmitsTheLayoutOfItsClass := fun x _ hj =>
  ⟨(wireInstr_some hj).2.mpr (le_maxForClass_classify x), encode_classify hj⟩

/-- The first byte of a class-i encoding has prefix class i (R82). -/
theorem classBytes_head_prefixClass {i : Nat} {x : Value} (hi : i ≤ 8) (hx : x.toNat ≤ maxForClass i) :
    (classBytes i x).head?.map prefixClass = some i := by
  obtain ⟨c, bs, hcb, -, hc, -⟩ := classBytes_eq_cons hi hx
  rw [hcb, List.head?_cons, Option.map_some, hc]

/-- Settles O8: it holds, for the canonical encodings as for all others. -/
theorem theTwoClassifiersAgree : Obligations.TheTwoClassifiersAgree := by
  constructor
  · intro x
    rw [encodeValue_eq_classBytes]
    exact classBytes_head_prefixClass (classify_le x) (le_maxForClass_classify x)
  · intro i x j hj hwf
    obtain ⟨hi, hiff⟩ := wireInstr_some hj
    rw [encode_eq_classBytes hj (hiff.mp hwf)]
    exact classBytes_head_prefixClass hi (hiff.mp hwf)

/-- A byte has as many leading one-bits as its class, and a zero-bit after them (R81). -/
theorem ones_then_zero (c : Byte) :
    (∀ p < prefixClass c, c.getLsbD (7 - p) = true) ∧
      (prefixClass c ≤ 7 → c.getLsbD (7 - prefixClass c) = false) := by
  revert c
  decide

/-- Settles O14: it holds, since the first byte has prefix class classify(x). -/
theorem firstByteHasOnesThenTerminator : Obligations.FirstByteHasOnesThenTerminator := by
  intro x
  obtain ⟨c, bs, hcb, -, hc, -⟩ := classBytes_eq_cons (classify_le x) (le_maxForClass_classify x)
  obtain ⟨hones, hzero⟩ := ones_then_zero c
  rw [hc] at hones hzero
  exact ⟨c, bs, (encodeValue_eq_classBytes x).trans hcb, hones, hzero,
    fun h8 => (prefixClass_eq_eight_iff c).mp (hc.trans h8)⟩

/-! ### Classes by bounds, bits and groups (R50, R78, R79) -/

/-- The rows of R50's table. -/
theorem classTable_row {i lo hi bytes bits : Nat} (h : (i, lo, hi, bytes, bits) ∈ classTable) :
    i ≤ 8 ∧ minForClass i = lo ∧ maxForClass i = hi ∧ hi + 1 = 2 ^ bits ∧ bytes = i + 1 := by
  have rows : ∀ r ∈ classTable, r.1 ≤ 8 ∧ minForClass r.1 = r.2.1 ∧ maxForClass r.1 = r.2.2.1 ∧
      r.2.2.1 + 1 = 2 ^ r.2.2.2.2 ∧ r.2.2.2.1 = r.1 + 1 := by decide
  exact rows _ h

/-- Settles O2: it holds, row by row for the bounds, and for any value between them by classify's test. -/
theorem classBoundaryTableGivesClassAndLength : Obligations.ClassBoundaryTableGivesClassAndLength := by
  intro i lo hi bytes bits h
  obtain ⟨h8, rfl, rfl, hbits, rfl⟩ := classTable_row h
  exact ⟨rfl, rfl, hbits, fun x => ⟨classify_eq_iff h8, fun hx => by rw [encodeValue_length, hx]⟩⟩

/-- Settles O4: it holds, since y's class holds every smaller value. -/
theorem classAndLengthAreMonotone : Obligations.ClassAndLengthAreMonotone := by
  intro x y hxy
  have hle : classify x ≤ classify y := classify_le_iff.mpr (hxy.le.trans (le_maxForClass_classify y))
  exact ⟨hle, by simpa only [encodeValue_length, Nat.add_le_add_iff_right] using hle⟩

/-- The significant bits of x are the least number of bits that hold it. -/
theorem significantBits_le_iff {x : Value} {n : Nat} : significantBits x ≤ n ↔ x.toNat < 2 ^ n := by
  unfold significantBits
  split_ifs with h0
  · subst h0
    simp
  · have hne : x.toNat ≠ 0 := fun h => h0 (BitVec.eq_of_toNat_eq (by simpa using h))
    rw [Nat.add_one_le_iff, Nat.log2_lt hne]

/-- Class i below 8 holds what 7(i + 1) bits do (R50). -/
theorem classify_le_iff_significantBits_le {x : Value} {i : Nat} (hi : i ≤ 7) :
    classify x ≤ i ↔ significantBits x ≤ 7 * (i + 1) := by
  rw [classify_le_iff, significantBits_le_iff, maxForClass, if_pos hi]
  have := Nat.two_pow_pos (7 * (i + 1))
  omega

/-- R78's first form. -/
theorem classify_eq_of_significantBits (x : Value) :
    classify x = if significantBits x ≤ 7 then 0 else min 8 ((significantBits x + 6) / 7 - 1) := by
  have h8 := classify_le x
  have hfits : classify x ≤ 7 → significantBits x ≤ 7 * (classify x + 1) := fun h =>
    (classify_le_iff_significantBits_le h).mp le_rfl
  have habove : 0 < classify x → 7 * classify x < significantBits x := fun h => by
    have := classify_le_iff_significantBits_le (x := x) (i := classify x - 1) (by omega)
    omega
  split_ifs <;> omega

/-- A number whose 7-bit groups above g are all zero is below the groups above g: its highest nonzero group is that of its
base-128 logarithm. -/
theorem lt_of_groups_eq_zero {n g : Nat} (h : ∀ k, g < k → n / 2 ^ (7 * k) % 128 = 0) : n < 2 ^ (7 * (g + 1)) := by
  by_contra hge
  have hpow (k : Nat) : 2 ^ (7 * k) = 128 ^ k := by rw [pow_mul]; rfl
  rw [hpow, not_lt] at hge
  have hn : n ≠ 0 := (Nat.pow_pos (by omega : 0 < 128)).trans_le hge |>.ne'
  have hlow := Nat.pow_log_le_self 128 hn
  have hhigh := Nat.lt_pow_succ_log_self (b := 128) (by omega) n
  have hzero := h (Nat.log 128 n) (Nat.le_log_of_pow_le (by omega) hge)
  rw [pow_succ] at hhigh
  rw [hpow, Nat.mod_eq_of_lt (Nat.div_lt_of_lt_mul hhigh)] at hzero
  exact (Nat.div_pos hlow (Nat.pow_pos (by omega))).ne' hzero

/-- Settles O3: it holds; both forms place the significant bits among multiples of 7. -/
theorem classifyBySignificantBitsAndGroups : Obligations.ClassifyBySignificantBitsAndGroups := by
  refine fun x => ⟨classify_eq_of_significantBits x, fun g hg hhigher => ?_⟩
  have hupper : significantBits x ≤ 7 * (g + 1) := significantBits_le_iff.mpr (lt_of_groups_eq_zero hhigher)
  have hlower : ¬ significantBits x ≤ 7 * g := fun h => hg <| by
    rw [Nat.div_eq_of_lt (significantBits_le_iff.mp h), Nat.zero_mod]
  rw [classify_eq_of_significantBits]
  split_ifs <;> omega

end Sys2Proof.Machine
end

section
/-! Named constants, sample words and the assembler (spec/30_encoding.md R63, R71, R76, spec/40_classifier.md R81,
spec/95_test_vectors.md): O6, O7, O24, O25 and O26. -/

namespace Sys2Proof.Machine

open Sys2Proof.Claims

/-! ### The masks of a byte (R63, R81) -/

/-- A byte has as many leading one-bits as its class (R81). -/
theorem prefixClass_eq_leadingOnes (c : Byte) : prefixClass c = leadingOnes c := by
  revert c
  decide

/-- A byte's bits outside its class's literal mask are the class's prefix (R63): the literal bits are what it has above
PFX. -/
theorem and_hdr_prefixClass (c : Byte) : c &&& hdr (prefixClass c) = pfx (prefixClass c) := by
  apply BitVec.eq_of_toNat_eq
  have hlit := and_lit_toNat c
  have hsum := toNat_and_not_add_toNat_and c (lit (prefixClass c))
  rw [hdr_eq_not_lit (prefixClass_le c)]
  omega

/-- Settles O6: it holds; the mask test of class i passes for the byte's own class and for no other. -/
theorem prefixClassCountsLeadingOnes : Obligations.PrefixClassCountsLeadingOnes := by
  refine fun c => ⟨prefixClass_eq_leadingOnes c, fun i hi => ⟨prefixClass_eq_of_and_hdr (by omega), ?_⟩⟩
  rintro rfl
  exact and_hdr_prefixClass c

/-- Settles O7: it holds, by the definitions of the four constants. -/
theorem namedConstantsOfEveryClass : Obligations.NamedConstantsOfEveryClass := by
  unfold Obligations.NamedConstantsOfEveryClass
  decide

/-! ### Words -/

/-- Settles O24: it holds, by running the decoders on these words. -/
theorem sampleWordsDecode : Obligations.SampleWordsDecode := by
  unfold Obligations.SampleWordsDecode
  decide

/-- Settles O26: it holds; each field of the word is what was put there, and the four are all of its bits. -/
theorem responseWordLayout : Obligations.ResponseWordLayout :=
  ⟨fun r => ⟨toWord_value r, toWord_count r, toWord_cls r, toWord_status r, ofWord_toWord r⟩, toWord_ofWord⟩

/-! ### The assembler (R76) -/

/-- A line in range assembles to its instruction's encoding. -/
theorem assemble_of_inRange {l : AsmLine} (h : lineInRange l = true) :
    ∃ w, assemble l = some w ∧ encode (lineInstr l) = .command w := by
  cases l with
  | classify v => exact ⟨_, if_pos (of_decide_eq_true h), rfl⟩
  | encode v => exact ⟨_, if_pos (of_decide_eq_true h), rfl⟩
  | decode => exact ⟨_, rfl, rfl⟩
  | pclass c => exact ⟨_, assemble_pclass (of_decide_eq_true h), rfl⟩

/-- A line out of range is refused. -/
theorem assemble_of_not_inRange {l : AsmLine} (h : lineInRange l = false) : assemble l = none := by
  cases l with
  | classify v => exact if_neg (of_decide_eq_false h)
  | encode v => exact if_neg (of_decide_eq_false h)
  | decode => cases h
  | pclass c => exact if_neg (of_decide_eq_false h)

/-- Settles O25: it holds; a line's word is its instruction's encoding, which decodes to the instruction. -/
theorem assembledLinesDecodeToTheirInstruction : Obligations.AssembledLinesDecodeToTheirInstruction := by
  refine ⟨by decide, by decide, fun l => ⟨fun h => ?_, assemble_of_not_inRange⟩⟩
  obtain ⟨w, hw, henc⟩ := assemble_of_inRange h
  have hwf : (lineInstr l).wellFormed = true := by cases l <;> rfl
  have hdec := (decodeOfEncodeIsTheInstruction _ hwf).1
  rw [henc, decode] at hdec
  exact ⟨w, hw, (Decoded.ok.inj hdec).1, henc⟩

end Sys2Proof.Machine
end

section
/-! One step of a block with reset low, command by command and transfer by transfer (spec/30_encoding.md R70,
spec/41_encoder.md R89, R90, spec/42_decoder.md R98, R99, spec/10_state.md R25, spec/70_reset_and_hazards.md R127): O29
to O36, O38, O47 and O48. -/

namespace Sys2Proof.Machine

/-! ### Commands -/

/-- ENCODE with a sink attached is accepted (R89). -/
theorem exec_encode_of_sink {s : State} (x : Value) (hs : s.sink.isSome = true) :
    exec (.encode x) s =
      .next { s with data := x, cls := BitVec.ofNat 4 (classify x), idx := 0#4, mode := .enc } := by
  obtain ⟨snk, hsnk⟩ := Option.isSome_iff_exists.mp hs
  simp [exec, execEncode, hsnk]

/-- ENCODE with no sink attached is refused (I18). -/
theorem exec_encode_of_no_sink {s : State} (x : Value) (hs : s.sink = none) :
    exec (.encode x) s = .refused .noSinkAttached := by
  simp [exec, execEncode, hs]

/-- DECODE with a source attached is accepted (R98). -/
theorem exec_decode_of_source {s : State} (hs : s.source.isSome = true) :
    exec .decode s = .next { s with idx := 0#4, mode := .dec } := by
  obtain ⟨src, hsrc⟩ := Option.isSome_iff_exists.mp hs
  simp [exec, execDecode, hsrc]

/-- DECODE with no source attached is refused (I18). -/
theorem exec_decode_of_no_source {s : State} (hs : s.source = none) :
    exec .decode s = .refused .noSourceAttached := by
  simp [exec, execDecode, hs]

/-- Settles O29: it holds, since the values between the bounds of class i are those of class i. -/
theorem encodeAcceptanceWritesTheTransaction : Obligations.EncodeAcceptanceWritesTheTransaction := by
  intro x i h8 hmin hmax s hs
  rw [exec_encode_of_sink x hs, (classify_eq_iff h8).mpr ⟨hmin, hmax⟩]

/-- Settles O30: it holds, by DECODE's meaning. -/
theorem decodeAcceptanceStartsTheTransaction : Obligations.DecodeAcceptanceStartsTheTransaction := fun _ hs =>
  exec_decode_of_source hs

/-- Settles O31: it holds, by the cases of a meaning, of which only these two are refusals. -/
theorem onlyUnattachedStreamsAreRefused : Obligations.OnlyUnattachedStreamsAreRefused := by
  intro i s r
  constructor
  · intro h
    rcases exec_cases i s with ⟨_, -, he⟩ | ⟨x, hi, hs, he⟩ | ⟨_, -, -, he⟩ | ⟨hi, hs, he⟩ | ⟨-, -, he⟩ |
      ⟨_, _, -, -, he⟩ <;> rw [he] at h <;> cases h
    · exact .inl ⟨x, hi, hs, rfl⟩
    · exact .inr ⟨hi, hs, rfl⟩
  · rintro (⟨x, rfl, hs, rfl⟩ | ⟨rfl, hs, rfl⟩)
    · exact exec_encode_of_no_sink x hs
    · exact exec_decode_of_no_source hs

/-- Settles O32: it holds, by the meaning that the nine rows share. -/
theorem wireInstructionsEndTheDecode : Obligations.WireInstructionsEndTheDecode := fun _ _ _ s hj => exec_wire hj s

/-- Settles O33: it holds, since a ready block accepts the word presented. -/
theorem stepRunsTheCommandPresented : Obligations.StepRunsTheCommandPresented := fun _ _ _ hr hl hp =>
  step_accept hr hl hp

/-! ### The write step -/

/-- The last write answered Ok ends the ENCODE (R90). -/
theorem afterWrite_of_eq {t : State} (h : t.idx.toNat = t.cls.toNat) :
    afterWrite t = respond statusOk t.cls (t.cls + 1#4) 0#64 { t with idx := t.idx + 1#4, mode := .idle } := by
  rw [afterWrite, if_pos (by omega)]

/-- Settles O35: it holds, by the write step for each answer, the last write being the one with IDX = CLS. -/
theorem encodeWriteStep : Obligations.EncodeWriteStep := by
  intro s held answers b hm _ hl hb
  refine ⟨fun hs hne => ?_, fun hs heq => ?_, fun left hs => step_enc hm hl hb hs⟩
  · refine (step_enc hm hl hb hs).trans (congrArg _ (afterWrite_of_ne ?_))
    exact fun h => hne (BitVec.eq_of_toNat_eq h)
  · exact (step_enc hm hl hb hs).trans (congrArg _ (afterWrite_of_eq (congrArg BitVec.toNat heq)))

/-! ### The read step -/

/-- The read that brings the last byte of a wire instruction runs it (R99). -/
theorem step_dec_last {s : State} {answers : List SrcAnswer} {consumed : List Byte} {b : Byte} {j : Instr}
    (hm : s.mode = .dec) (hl : ResetLow 1 s)
    (hs : s.source = some { answers := .byte b :: answers, consumed := consumed })
    (hk : s.idx.toNat = readClass b s) (hj : wireInstr (readClass b s) (readData b s) = some j) :
    step s = exec j
      { afterLevels 1 s with source := some { answers := answers, consumed := consumed ++ [b] } } := by
  rw [step_dec_byte hm (wireInstr_some hj).1 hl hs rfl, if_pos hk, exec_wire hj]

/-- Settles O34: it holds; the byte completes class 0 as the first byte, or the class in CLS as a later one. -/
theorem stepRunsTheWireInstructionRead : Obligations.StepRunsTheWireInstructionRead := by
  intro s b answers consumed i hm hl hs hfirst hlater
  by_cases h0 : s.idx = 0#4
  · obtain ⟨hc, hi⟩ := hfirst h0
    have hclass : readClass b s = 0 := (if_pos h0).trans hc
    have hdata : readData b s = (b &&& lit 0).setWidth 64 := by rw [readData, if_pos h0, hc]
    exact step_dec_last hm hl hs (by rw [h0, hclass]; rfl) (by rw [hclass, hdata, hi])
  · obtain ⟨hc, hi⟩ := hlater h0
    have hclass : readClass b s = s.cls.toNat := if_neg h0
    have hdata : readData b s = pushByte s.data b := if_neg h0
    exact step_dec_last hm hl hs (by rw [hc, hclass]) (by rw [hclass, hdata]; exact hi)

/-- Settles O36: it holds, by the read step for each answer; C and D are what a byte makes of CLS and DATA. -/
theorem decodeReadStep : Obligations.DecodeReadStep := by
  intro s answers consumed hm hp hl
  refine ⟨fun b C D hs hC hD => ?_, fun hs => step_dec_fail hm hl (.inl ⟨rfl, rfl⟩) hs,
    fun hs => step_dec_fail hm hl (.inr ⟨rfl, rfl⟩) hs⟩
  obtain rfl : C = readClass b s := hC
  obtain rfl : D = readData b s := hD
  have hstep := step_dec_byte hm (readClass_le hp b) hl hs rfl
  refine ⟨fun hne => ?_, fun heq => ?_⟩
  · rw [hstep, if_neg hne]
  · rw [hstep, if_pos heq, ← ofNat_toNat_succ, heq]
    rfl

/-! ### Holds and takes -/

/-- A block whose move is a hold takes no step: at most the reset line moves on (R127). -/
theorem step_of_wait {s : State} {f : Fault} (hw : blockMove (afterLevels 1 s) = .wait f) :
    (s.resetLine = [] → step s = .fault f) ∧
      ∀ line, s.resetLine = false :: line → step s = .next { s with resetLine := line } := by
  refine ⟨fun hr => ?_, fun line hr => ?_⟩
  · rw [step_of_low (by simp [ResetLow, hr]), hw]
    exact if_pos hr
  · rw [step_of_low (by simp [ResetLow, hr]), hw]
    simp [afterLevels, hr]

theorem encodeStep_of_withheld {s : State} (hp : EncodeInProgress s) (hs : s.sink.map Sink.answers = some []) :
    encodeStep s = .wait .waitSink := by
  obtain ⟨b, hb⟩ := encode_byte hp
  obtain ⟨snk, hsnk, hans⟩ := Option.map_eq_some_iff.mp hs
  simp [encodeStep, sinkWrite, hb, hsnk, hans]

theorem decodeStep_of_withheld {s : State} (hs : s.source.map Source.answers = some []) :
    decodeStep s = .wait .waitSource := by
  obtain ⟨src, hsrc, hans⟩ := Option.map_eq_some_iff.mp hs
  simp [decodeStep, srcRead, hsrc, hans]

theorem hostTake_of_zero {s : State} (h : s.hostTakes = 0) : hostTake s = .wait .waitTake := by
  simp [hostTake, h]

theorem acceptCommand_of_nil {s : State} (h : s.cmdPort = []) : acceptCommand s = .wait .waitCommand := by
  simp [acceptCommand, h]

/-- Settles O38: it holds, since in each of the four cases the block's move is a hold, and the reset line has no part in
the move. -/
theorem holdsUntilTheEnvironmentMoves : Obligations.HoldsUntilTheEnvironmentMoves := by
  rintro s f (⟨hm, hp, hs, rfl⟩ | ⟨hm, hs, rfl⟩ | ⟨hm, hv, hn, rfl⟩ | ⟨hr, hp, rfl⟩)
  · exact step_of_wait ((blockMove_enc (s := afterLevels 1 s) hm).trans (encodeStep_of_withheld hp hs))
  · exact step_of_wait ((blockMove_dec (s := afterLevels 1 s) hm).trans (decodeStep_of_withheld hs))
  · exact step_of_wait ((blockMove_take (s := afterLevels 1 s) hm hv).trans (hostTake_of_zero hn))
  · exact step_of_wait ((blockMove_ready (s := afterLevels 1 s) hr).trans (acceptCommand_of_nil hp))

/-- Settles O47: it holds, by the host's take of a response that stands. -/
theorem hostTakesAResponseInAStepOfItsOwn : Obligations.HostTakesAResponseInAStepOfItsOwn := by
  intro s n hm hv hn hl
  have hmove : blockMove (afterLevels 1 s) = hostTake (afterLevels 1 s) := blockMove_take hm hv
  rw [step_of_low hl, hmove]
  refine ⟨fun hst => ?_, fun hst => ?_⟩
  · simp [hostTake, hn, hst]
  · simp [hostTake, hn, hst]

/-- Settles O48: it holds; the block is ready and its port is empty. -/
theorem afterResetTheBlockWaitsForACommand : Obligations.AfterResetTheBlockWaitsForACommand :=
  ⟨rfl, rfl, rfl, (holdsUntilTheEnvironmentMoves _ _ (.inr (.inr (.inr ⟨rfl, rfl, rfl⟩)))).1 rfl⟩

end Sys2Proof.Machine
end

section
/-! Whole commands (spec/41_encoder.md R89 to R91, spec/42_decoder.md R97 to R101): an ENCODE from its acceptance to its
last or failing write, a DECODE from its acceptance to its last or failing read; O39, O40, O41, O43 and O44 are these. -/

namespace Sys2Proof.Machine

/-! ### ENCODE -/

/-- encode(x) is its first classify(x) bytes and one more. -/
theorem encodeValue_eq_take_append_last (x : Value) :
    ∃ b, (encodeValue x)[classify x]? = some b ∧ (encodeValue x).take (classify x) ++ [b] = encodeValue x := by
  have hlen := encodeValue_length x
  have hlt : classify x < (encodeValue x).length := by omega
  exact ⟨_, List.getElem?_eq_getElem hlt, by rw [List.take_append_getElem, List.take_of_length_le (by omega)]⟩

/-- An ENCODE whose writes are all answered Ok responds OK with all of encode(x) on the sink (R90, R91). -/
theorem run_encode {x : Value} {s : State} {rest : List CommandWord} {held : List Byte} {answers : List SinkAnswer}
    (hr : cmdReady s = true) (hp : s.cmdPort = commandWord 0b01#2 x :: rest)
    (hs : s.sink = some { held := held, answers := List.replicate (classify x + 1) .ok ++ answers })
    (hl : ResetLow (classify x + 2) s) :
    run (classify x + 2) s = .next (respond statusOk (BitVec.ofNat 4 (classify x)) (BitVec.ofNat 4 (classify x + 1)) 0#64
      { afterLevels (classify x + 2) s with
        mode := .idle
        cmdPort := rest
        data := x
        cls := BitVec.ofNat 4 (classify x)
        idx := BitVec.ofNat 4 (classify x + 1)
        sink := some { held := held ++ encodeValue x, answers := answers } }) := by
  obtain ⟨hl1, hlc⟩ := resetLow_succ hl
  obtain ⟨b, hb, htake⟩ := encodeValue_eq_take_append_last x
  have hnat : (BitVec.ofNat 4 (classify x)).toNat = classify x := by
    have := classify_le x
    rw [BitVec.toNat_ofNat]
    omega
  rw [List.replicate_succ', List.append_assoc] at hs
  have hwrites := run_writes x (classify x) 0 (encodeAccepted x rest s) held (.ok :: answers) rfl rfl rfl rfl
    (by omega) hs (resetLow_mono hlc (by omega))
  rw [Nat.zero_add, List.drop_zero] at hwrites
  rw [run_succ (classify x + 1) (step_encodeAccepted hr hl1 hp hs)]
  refine (run_snoc hwrites (step_enc (b := b) rfl ?_ ?_ rfl)).trans ?_
  · exact resetLow_afterLevels hlc
  · exact (congrArg _ hnat).trans hb
  · simp only
    rw [afterWrite_of_eq rfl]
    simp [encodeAccepted, afterLevels, respond, htake, ← ofNat_toNat_succ, hnat]

/-- Settles O39: it holds, by the run of an ENCODE with every write answered Ok. -/
theorem encodeRunWritesTheEncoding : Obligations.EncodeRunWritesTheEncoding := by
  intro x s rest held answers hr hp hs hl
  obtain ⟨hm, -⟩ := (cmdReady_iff s).mp hr
  rw [run_encode hr hp hs hl]
  simp [respond, afterLevels, hm]

/-- Settles O40: it holds, by the run of an ENCODE to its failing write. -/
theorem encodeRunStopsAtTheFailingWrite : Obligations.EncodeRunStopsAtTheFailingWrite := by
  intro x k s rest held left answers hk hr hp hs hl
  obtain ⟨hm, -⟩ := (cmdReady_iff s).mp hr
  rw [run_encode_write_fails hk hr hp hs hl]
  simp [raise, respond, encodeAccepted, afterLevels, hm]

/-! ### The reads of a DECODE -/

/-- Shifting the literal bytes in one by one, after the literal bits of the first, makes R93's value: no bit is lost. -/
theorem foldl_pushByte_eq_literalValue {c : Byte} {bs : List Byte} (h : bs.length = prefixClass c) :
    bs.foldl pushByte ((c &&& lit (prefixClass c)).setWidth 64) = literalValue (prefixClass c) c bs := by
  have hpow : (256 : Nat) ^ bs.length = 2 ^ (8 * prefixClass c) := by
    rw [h, show (256 : Nat) = 2 ^ 8 from rfl, ← pow_mul]
  have hwidth : ((c &&& lit (prefixClass c)).setWidth 64).toNat = (c &&& lit (prefixClass c)).toNat :=
    BitVec.toNat_setWidth_of_le (by omega)
  have hv := literalValue_toNat_eq_add c bs h
  have hlt := (literalValue (prefixClass c) c bs).isLt
  apply BitVec.eq_of_toNat_eq
  rw [foldl_pushByte_toNat, hwidth, hpow, hv]
  rw [hwidth, hpow, ← hv]
  exact hlt

theorem midRead_idx_toNat {c : Byte} {bs : List Byte} (h : bs.length < prefixClass c) (answers : List SrcAnswer)
    (consumed : List Byte) (s : State) : (midRead c bs answers consumed s).idx.toNat = bs.length + 1 := by
  have := prefixClass_le c
  simp only [midRead, BitVec.toNat_ofNat]
  omega

theorem midRead_idx_ne_zero {c : Byte} {bs : List Byte} (h : bs.length < prefixClass c) (answers : List SrcAnswer)
    (consumed : List Byte) (s : State) : (midRead c bs answers consumed s).idx ≠ 0#4 := by
  intro hzero
  have := midRead_idx_toNat h answers consumed s
  simp [hzero] at this

/-- Between bytes a DECODE keeps the class of the first. -/
theorem readClass_midRead {c b : Byte} {bs : List Byte} (h : bs.length < prefixClass c) (answers : List SrcAnswer)
    (consumed : List Byte) (s : State) : readClass b (midRead c bs answers consumed s) = prefixClass c := by
  have := prefixClass_le c
  rw [readClass, if_neg (midRead_idx_ne_zero h answers consumed s)]
  simp only [midRead, BitVec.toNat_ofNat]
  omega

/-- A later byte is shifted into the bits read so far. -/
theorem readData_midRead {c b : Byte} {bs : List Byte} (h : bs.length < prefixClass c) (answers : List SrcAnswer)
    (consumed : List Byte) (s : State) :
    readData b (midRead c bs answers consumed s) =
      (bs ++ [b]).foldl pushByte ((c &&& lit (prefixClass c)).setWidth 64) := by
  rw [readData, if_neg (midRead_idx_ne_zero h answers consumed s), List.foldl_append]
  rfl

/-- A DECODE that has read nothing, on as many bytes as the first asks for, ends with their value (R99). -/
theorem run_reads_all {c : Byte} {bs : List Byte} {s : State} {consumed : List Byte} {more : List SrcAnswer}
    (hlen : bs.length = prefixClass c) (hm : s.mode = .dec) (h0 : s.idx = 0#4)
    (hs : s.source = some { answers := (c :: bs).map .byte ++ more, consumed := consumed })
    (hl : ResetLow (bs.length + 1) s) :
    run (bs.length + 1) s = .next (completeWire (prefixClass c) (literalValue (prefixClass c) c bs)
      { afterLevels (bs.length + 1) s with source := some { answers := more, consumed := consumed ++ c :: bs } }) := by
  rw [← foldl_pushByte_eq_literalValue hlen]
  have h8 := prefixClass_le c
  rcases List.eq_nil_or_concat' bs with rfl | ⟨ds, b, rfl⟩
  · have hclass : readClass c s = prefixClass c := if_pos h0
    have hdata : readData c s = (c &&& lit (prefixClass c)).setWidth 64 := if_pos h0
    have hk : s.idx.toNat = readClass c s := by rw [h0, hclass, ← hlen]; rfl
    rw [List.length_nil, run_succ 0 (step_dec_byte hm (by omega) hl hs rfl), if_pos hk, hclass, hdata]
    rfl
  · rw [List.length_append, List.length_singleton] at hlen hl ⊢
    have hlt : ds.length < prefixClass c := by omega
    have hreads := run_reads c ds s (.byte b :: more) consumed hlt hm h0 (by simpa using hs)
      (resetLow_mono hl (by omega))
    have hclass := readClass_midRead (b := b) hlt (.byte b :: more) consumed s
    have hk : (midRead c ds (.byte b :: more) consumed s).idx.toNat =
        readClass b (midRead c ds (.byte b :: more) consumed s) := by
      rw [midRead_idx_toNat hlt, hclass, hlen]
    refine (run_snoc hreads (step_dec_byte hm (by omega) (resetLow_afterLevels hl) rfl rfl)).trans ?_
    rw [if_pos hk, hclass, readData_midRead hlt]
    simp [completeWire, respond, midRead, afterLevels]

/-- A DECODE that has read nothing, on the class-i encoding of x, ends as VLI.Ci x does (R99). -/
theorem run_read_classBytes {i : Nat} {x : Value} {s : State} {consumed : List Byte} {more : List SrcAnswer}
    (hi : i ≤ 8) (hx : x.toNat ≤ maxForClass i) (hm : s.mode = .dec) (h0 : s.idx = 0#4)
    (hs : s.source = some { answers := (classBytes i x).map .byte ++ more, consumed := consumed })
    (hl : ResetLow (i + 1) s) :
    run (i + 1) s = .next (completeWire i x
      { afterLevels (i + 1) s with source := some { answers := more, consumed := consumed ++ classBytes i x } }) := by
  obtain ⟨c, bs, hcb, hlen, hc, rfl⟩ := classBytes_eq_cons hi hx
  rw [hcb] at hs ⊢
  subst hc
  rw [← hlen] at hl
  simpa only [hlen] using run_reads_all hlen hm h0 hs hl

/-- Settles O43: it holds, since the reads end as the wire instruction does. -/
theorem readingAnEncodingRunsItsInstruction : Obligations.ReadingAnEncodingRunsItsInstruction := by
  intro i x j s consumed more hj hwf hm h0 hs hl
  obtain ⟨hi, hiff⟩ := wireInstr_some hj
  rw [encode_eq_classBytes hj (hiff.mp hwf)] at hs ⊢
  rw [exec_wire hj]
  exact run_read_classBytes hi (hiff.mp hwf) hm h0 hs hl

/-! ### DECODE -/

/-- A whole DECODE on the class-i encoding of x, whatever follows it (R98 to R100). -/
theorem run_decode_classBytes {i : Nat} {x : Value} {s : State} {arg : Value} {rest : List CommandWord}
    {consumed : List Byte} {more : List SrcAnswer} (hi : i ≤ 8) (hx : x.toNat ≤ maxForClass i)
    (hr : cmdReady s = true) (hp : s.cmdPort = commandWord 0b10#2 arg :: rest)
    (hs : s.source = some { answers := (classBytes i x).map .byte ++ more, consumed := consumed })
    (hl : ResetLow (i + 2) s) :
    run (i + 2) s = .next (completeWire i x
      { afterLevels (i + 2) s with
        cmdPort := rest
        source := some { answers := more, consumed := consumed ++ classBytes i x } }) := by
  obtain ⟨hl1, hli⟩ := resetLow_succ hl
  rw [run_succ (i + 1) (step_decodeAccepted hr hl1 hp hs)]
  refine (run_read_classBytes (s := decodeAccepted rest s) hi hx rfl rfl hs hli).trans ?_
  simp only [completeWire, respond, decodeAccepted, afterLevels, List.drop_drop, Nat.add_comm 1]

/-- Settles O44: it holds; the ENCODE adds encode(x), which is an encoding of x for the DECODE. -/
theorem roundTripThroughTheStreams : Obligations.RoundTripThroughTheStreams := by
  intro x s rest held answers hr hp hs hl
  refine ⟨_, encodeValue x, run_encode hr hp hs hl, rfl, ?_⟩
  intro u arg later consumed more hru hpu hsu hlu
  rw [encodeValue_eq_classBytes] at hsu ⊢
  exact ⟨_, run_decode_classBytes (classify_le x) (le_maxForClass_classify x) hru hpu hsu hlu, rfl, rfl, rfl⟩

/-- The byte lists that decodeBytes calls truncated (R92). -/
theorem decodeBytes_eq_truncated {bs : List Byte} {c k : Nat} (h : decodeBytes bs = .truncated c k) :
    (bs = [] ∧ c = 0 ∧ k = 0) ∨
      ∃ d ds, bs = d :: ds ∧ ds.length < prefixClass d ∧ c = prefixClass d ∧ k = ds.length + 1 := by
  rcases bs with _ | ⟨d, ds⟩
  · cases h
    exact .inl ⟨rfl, rfl, rfl⟩
  · rcases Nat.lt_or_ge ds.length (prefixClass d) with hlt | hge
    · rw [decodeBytes_of_length_lt hlt] at h
      cases h
      exact .inr ⟨d, ds, rfl, hlt, rfl, rfl⟩
    · rw [decodeBytes_of_le_length hge] at h
      cases h

/-- A whole DECODE on bytes that are too few and then Exhausted (R99, R103). -/
theorem run_decode_truncated {bs : List Byte} {c k : Nat} {s : State} {arg : Value} {rest : List CommandWord}
    {consumed : List Byte} {more : List SrcAnswer} (h : decodeBytes bs = .truncated c k) (hr : cmdReady s = true)
    (hp : s.cmdPort = commandWord 0b10#2 arg :: rest)
    (hs : s.source = some { answers := bs.map .byte ++ .exhausted :: more, consumed := consumed })
    (hl : ResetLow (k + 2) s) :
    ∃ data cls, run (k + 2) s = .next (raise .truncated (BitVec.ofNat 4 c)
      { afterLevels (k + 2) s with
        mode := .idle
        cmdPort := rest
        data := data
        cls := cls
        idx := BitVec.ofNat 4 k
        source := some { answers := more, consumed := consumed ++ bs } }) := by
  obtain ⟨hl1, hlk⟩ := resetLow_succ hl
  have hacc := step_decodeAccepted hr hl1 hp hs
  rcases decodeBytes_eq_truncated h with ⟨rfl, rfl, rfl⟩ | ⟨d, ds, rfl, hlt, rfl, rfl⟩
  · refine ⟨s.data, s.cls, (run_snoc (run_succ 0 hacc) (step_dec_fail rfl hlk (.inl ⟨rfl, rfl⟩) hs)).trans ?_⟩
    rw [errorClass_decodeAccepted]
    simp [raise, respond, decodeAccepted, afterLevels]
  · have hreads := run_reads d ds (decodeAccepted rest s) (.exhausted :: more) consumed hlt rfl rfl hs
      (resetLow_mono hlk (by omega))
    refine ⟨ds.foldl pushByte ((d &&& lit (prefixClass d)).setWidth 64), BitVec.ofNat 4 (prefixClass d),
      (run_succ (ds.length + 2) hacc).trans <| (run_snoc hreads
        (step_dec_fail rfl (resetLow_afterLevels hlk) (.inl ⟨rfl, rfl⟩) rfl)).trans ?_⟩
    rw [errorClass_midRead hlt]
    simp only [raise, respond, midRead, decodeAccepted, afterLevels, List.drop_drop, Nat.add_comm 1]

/-- Settles O41: it holds; bytes that decode begin with an encoding of their value, and others are too few. -/
theorem decodeRunAgreesWithDecodeBytes : Obligations.DecodeRunAgreesWithDecodeBytes := by
  intro bs s arg rest consumed more hr hp hs
  obtain ⟨hm, -⟩ := (cmdReady_iff s).mp hr
  refine ⟨fun v n h hl => ?_, fun c k h hl => ?_⟩
  · obtain ⟨i, hi, hv, rfl, tail, rfl⟩ := decodeBytes_eq_ok_iff.mp h
    rw [List.map_append, List.append_assoc] at hs
    rw [run_decode_classBytes hi hv hr hp hs hl, List.take_left' (classBytes_length i v),
      List.drop_left' (classBytes_length i v)]
    simp [completeWire, respond, afterLevels, hm]
  · obtain ⟨data, cls, hrun⟩ := run_decode_truncated h hr hp hs hl
    refine ⟨data, cls, hrun.trans ?_⟩
    simp [raise, respond, afterLevels, hm]

end Sys2Proof.Machine
end

section
/-! What every step keeps (spec/10_state.md R20 to R26, spec/20_memory.md R31 to R41, spec/60_exceptions.md R102 to R105):
the streams change only by the transfer in progress, a response is legal, and the invariant of the transaction state is
kept; O50 to O54 are these. -/

namespace Sys2Proof.Machine

/-! ### Streams -/

@[simp] theorem afterWrite_sink (s : State) : (afterWrite s).sink = s.sink := by
  unfold afterWrite
  split <;> rfl

@[simp] theorem afterWrite_source (s : State) : (afterWrite s).source = s.source := by
  unfold afterWrite
  split <;> rfl

/-- A step leaves the sink as it is, or is a write of an ENCODE, which uses up one answer (R34). -/
theorem StepCase.sink_eq_or_written {s t : State} (h : StepCase s t) :
    t.sink = s.sink ∨ (s.mode = .enc ∧ ∃ held answers,
      (∃ b, (encodeValue s.data)[s.idx.toNat]? = some b ∧ s.sink = some { held := held, answers := .ok :: answers } ∧
        t.sink = some { held := held ++ [b], answers := answers }) ∨
      ∃ left, s.sink = some { held := held, answers := .ioFail left :: answers } ∧
        t.sink = some { held := held ++ left, answers := answers }) := by
  cases h with
  | wrote hl hm b held answers hb hs => exact .inr ⟨hm, held, answers, .inl ⟨b, hb, hs, by simp⟩⟩
  | writeFailed hl hm held left answers hs => exact .inr ⟨hm, held, answers, .inr ⟨left, hs, rfl⟩⟩
  | reset | hold | classified | encodeAccepted | decodeAccepted | taken | readFailed | readLast | readMore =>
    exact .inl rfl

/-- A step leaves the source as it is, or is a read of a DECODE, which uses up one answer (R33). -/
theorem StepCase.source_eq_or_read {s t : State} (h : StepCase s t) :
    t.source = s.source ∨ (s.mode = .dec ∧ ∃ a answers consumed,
      s.source = some { answers := a :: answers, consumed := consumed } ∧
      ((∃ b, a = .byte b ∧ t.source = some { answers := answers, consumed := consumed ++ [b] }) ∨
        ((a = .exhausted ∨ a = .ioFail) ∧ t.source = some { answers := answers, consumed := consumed }))) := by
  cases h with
  | readFailed hl hm a e ha answers consumed hs =>
    exact .inr ⟨hm, a, answers, consumed, hs, .inr ⟨ha.imp And.left And.left, rfl⟩⟩
  | readLast hl hm b answers consumed hs | readMore hl hm b answers consumed hs =>
    exact .inr ⟨hm, _, answers, consumed, hs, .inl ⟨b, rfl, rfl⟩⟩
  | wrote => exact .inl (by simp)
  | reset | hold | classified | encodeAccepted | decodeAccepted | taken | writeFailed => exact .inl rfl

/-- Settles O50: it holds, by the cases of a step for each stream. -/
theorem streamsChangeOnlyByTheirOwnTransfers : Obligations.StreamsChangeOnlyByTheirOwnTransfers := by
  intro s t h
  have hsink := (step_cases h).sink_eq_or_written
  have hsource := (step_cases h).source_eq_or_read
  refine ⟨fun hm => hsink.resolve_right fun hw => hm hw.1, fun hm => hsource.resolve_right fun hr => hm hr.1,
    fun k hk => ?_, fun q hq => ?_⟩
  · rcases hsink with heq | ⟨-, held, answers, ⟨b, hb, hs, ht⟩ | ⟨left, hs, ht⟩⟩
    · exact ⟨k, heq.trans hk, .inl rfl⟩
    · obtain rfl := Option.some.inj (hk.symm.trans hs)
      exact ⟨_, ht, .inr ⟨_, rfl, .inl ⟨rfl, b, hb, rfl⟩⟩⟩
    · obtain rfl := Option.some.inj (hk.symm.trans hs)
      exact ⟨_, ht, .inr ⟨_, rfl, .inr ⟨left, rfl, rfl⟩⟩⟩
  · rcases hsource with heq | ⟨-, a, answers, consumed, hs, ⟨b, ha, ht⟩ | ⟨ha, ht⟩⟩
    · exact ⟨q, heq.trans hq, .inl rfl⟩
    · obtain rfl := Option.some.inj (hq.symm.trans hs)
      exact ⟨_, ht, .inr ⟨a, rfl, .inl ⟨b, ha, rfl⟩⟩⟩
    · obtain rfl := Option.some.inj (hq.symm.trans hs)
      exact ⟨_, ht, .inr ⟨a, rfl, .inr ⟨ha, rfl⟩⟩⟩

/-! ### Errors -/

/-- The one response of a write answered Ok is OK (R90). -/
theorem afterWrite_status_ok {s : State} (hs : s.respValid = false) (h : (afterWrite s).respValid = true) :
    (afterWrite s).resp.status = 0b00#2 := by
  by_cases heq : s.idx.toNat = s.cls.toNat
  · rw [afterWrite_of_eq heq]
    rfl
  · rw [afterWrite_of_ne heq] at h
    exact absurd (hs.symm.trans h) Bool.false_ne_true

/-- A step that sets RESP_VALID responds OK, or takes the error of the transfer that failed (R102 to R104). -/
theorem StepCase.response_ok_or_failed {s t : State} (h : StepCase s t) (hs : s.respValid = false)
    (ht : t.respValid = true) :
    t.resp.status = 0b00#2 ∨
      (t.resp.status = 0b01#2 ∧ s.mode = .dec ∧ ∃ q rest, s.source = some q ∧ q.answers = .exhausted :: rest) ∨
      (t.resp.status = 0b10#2 ∧
        ((s.mode = .dec ∧ ∃ q rest, s.source = some q ∧ q.answers = .ioFail :: rest) ∨
          (s.mode = .enc ∧ ∃ k left rest, s.sink = some k ∧ k.answers = .ioFail left :: rest))) := by
  cases h with
  | classified | readLast => exact .inl rfl
  | wrote hl hm b held answers hb hk =>
    exact .inl (afterWrite_status_ok hs ht)
  | writeFailed hl hm held left answers hk => exact .inr (.inr ⟨rfl, .inr ⟨hm, _, left, answers, hk, rfl⟩⟩)
  | readFailed hl hm a e ha answers consumed hq =>
    rcases ha with ⟨rfl, rfl⟩ | ⟨rfl, rfl⟩
    · exact .inr (.inl ⟨rfl, hm, _, answers, hq, rfl⟩)
    · exact .inr (.inr ⟨rfl, .inl ⟨hm, _, answers, hq, rfl⟩⟩)
  | reset | taken => cases ht
  | hold | encodeAccepted | decodeAccepted | readMore => exact absurd (hs.symm.trans ht) Bool.false_ne_true

/-- Settles O51: it holds, by what a step that responds can be. -/
theorem errorsComeOnlyFromFailedTransfers : Obligations.ErrorsComeOnlyFromFailedTransfers := by
  intro s t h hs ht
  rcases (step_cases h).response_ok_or_failed hs ht with hok | ⟨htrunc, hfrom⟩ | ⟨hio, hfrom⟩
  · simp [hok]
  · simpa [htrunc] using hfrom
  · simpa [hio] using hfrom

/-! ### Legal responses -/

theorem legalResponse_ok {i : Nat} {x : Value} (hi : i ≤ 8) (hx : x.toNat ≤ maxForClass i) :
    LegalResponse { status := statusOk, cls := BitVec.ofNat 4 i, count := BitVec.ofNat 4 (i + 1), value := x } := by
  have hc : (BitVec.ofNat 4 i).toNat = i := by rw [BitVec.toNat_ofNat]; omega
  have hn : (BitVec.ofNat 4 (i + 1)).toNat = i + 1 := by rw [BitVec.toNat_ofNat]; omega
  refine ⟨show statusOk ≠ statusNever by decide, ?_, ?_, fun _ => ⟨?_, ?_⟩, fun h => absurd rfl h⟩
  · rw [hc]; exact hi
  · rw [hn]; omega
  · rw [hc, hn]
  · rw [hc]; exact hx

theorem ErrorKind.status_ne_never (e : ErrorKind) : e.status ≠ statusNever := by
  cases e <;> decide

theorem legalResponse_error (e : ErrorKind) {c n : Nibble} (hc : c.toNat ≤ 8) (hn : n.toNat ≤ c.toNat) :
    LegalResponse { status := e.status, cls := c, count := n, value := 0#64 } :=
  ⟨e.status_ne_never, hc, by simp only; omega, fun h => absurd h e.status_ne_ok, fun _ => ⟨hn, rfl⟩⟩

/-! ### The accumulator of a DECODE -/

/-- The literal bits of a first byte. -/
theorem and_lit_lt_literalBits (b : Byte) :
    (b &&& lit (prefixClass b)).toNat < 2 ^ literalBits (prefixClass b) 1 := by
  rcases Nat.lt_or_ge 7 (prefixClass b) with h8 | h7
  · have hlit : lit (prefixClass b) = 0#8 := if_neg (by omega)
    simp [hlit]
  · exact and_lit_lt b h7

/-- One more literal byte is 8 more literal bits, and within 64 bits nothing is lost (R22, R94). -/
theorem pushByte_lt_literalBits {v : Value} {i k : Nat} (b : Byte) (hk0 : k ≠ 0) (hk : k ≤ i) (hi : i ≤ 8)
    (hv : v.toNat < 2 ^ literalBits i k) : (pushByte v b).toNat < 2 ^ literalBits i (k + 1) := by
  have hbits : literalBits i (k + 1) = literalBits i k + 8 := by unfold literalBits; omega
  have hle : literalBits i k ≤ 56 := by unfold literalBits; omega
  have hb := b.isLt
  rw [pushByte_toNat b (hv.trans_le (Nat.pow_le_pow_right (by omega) hle)), hbits, pow_add]
  omega

/-- DATA after a read is no wider than the literal bits read. -/
theorem readData_lt_literalBits {s : State} (hp : DecodeInProgress s) (b : Byte) :
    (readData b s).toNat < 2 ^ literalBits (readClass b s) (s.idx.toNat + 1) := by
  obtain ⟨-, hlater⟩ := hp
  by_cases h0 : s.idx = 0#4
  · rw [readData, readClass, if_pos h0, if_pos h0, h0, BitVec.toNat_setWidth_of_le (by omega)]
    exact and_lit_lt_literalBits b
  · obtain ⟨hk, hc, hv⟩ := hlater h0
    rw [readData, readClass, if_neg h0, if_neg h0]
    exact pushByte_lt_literalBits b (fun h => h0 (BitVec.eq_of_toNat_eq h)) hk hc hv

/-- All the literal bits of class i hold what class i does. -/
theorem le_maxForClass_of_lt_literalBits {i : Nat} {x : Value} (hi : i ≤ 8) (hx : x.toNat < 2 ^ literalBits i (i + 1)) :
    x.toNat ≤ maxForClass i := by
  rcases Nat.lt_or_ge 7 i with h8 | h7
  · obtain rfl : i = 8 := by omega
    exact le_maxForClass_eight x
  · have := maxForClass_of_le h7
    rw [literalBits, Nat.add_sub_cancel, pow_add] at hx
    omega

/-- A DECODE has read no more bytes than its class has. -/
theorem idx_le_readClass {s : State} (hp : DecodeInProgress s) (b : Byte) : s.idx.toNat ≤ readClass b s := by
  unfold readClass
  split_ifs with h0
  · simp [h0]
  · exact (hp.2 h0).1

/-- What an error in a DECODE reports is legal: CLASS 0 before any byte, else CLS, and IDX transfers. -/
theorem errorClass_le {s : State} (hp : DecodeInProgress s) :
    (errorClass s).toNat ≤ 8 ∧ s.idx.toNat ≤ (errorClass s).toNat := by
  unfold errorClass
  split_ifs with h0
  · simp [h0]
  · obtain ⟨hk, hc, -⟩ := hp.2 h0
    exact ⟨hc, hk⟩

/-! ### The invariant -/

/-- An idle block meets the invariant if its responses are legal. -/
theorem stateInv_of_idle {s : State} (hm : s.mode = .idle) (hr : s.respValid = true → LegalResponse s.resp)
    (ht : ∀ r ∈ s.taken, LegalResponse r) : StateInv s :=
  ⟨fun hv => ⟨hm, hr hv⟩, fun h => absurd (hm.symm.trans h) (by decide), fun h => absurd (hm.symm.trans h) (by decide), ht⟩

/-- A block with an ENCODE in progress, and no response standing. -/
theorem stateInv_of_enc {s : State} (hm : s.mode = .enc) (hv : s.respValid = false) (hp : EncodeInProgress s)
    (ht : ∀ r ∈ s.taken, LegalResponse r) : StateInv s :=
  ⟨fun h => absurd (hv.symm.trans h) (by decide), fun _ => hp, fun h => absurd (hm.symm.trans h) (by decide), ht⟩

/-- A block with a DECODE in progress, and no response standing. -/
theorem stateInv_of_dec {s : State} (hm : s.mode = .dec) (hv : s.respValid = false) (hp : DecodeInProgress s)
    (ht : ∀ r ∈ s.taken, LegalResponse r) : StateInv s :=
  ⟨fun h => absurd (hv.symm.trans h) (by decide), fun h => absurd (hm.symm.trans h) (by decide), fun _ => hp, ht⟩

/-- No response stands while a command is in progress. -/
theorem respValid_eq_false_of_busy {s : State} (h : StateInv s) (hm : s.mode ≠ .idle) : s.respValid = false :=
  Bool.eq_false_iff.mpr fun hv => hm (h.1 hv).1

/-- IDX counts without wrapping. -/
theorem toNat_add_one {k : Nibble} (h : k.toNat < 15) : (k + 1#4).toNat = k.toNat + 1 := by
  rw [BitVec.toNat_add, BitVec.toNat_ofNat]
  omega

/-- The write step of an ENCODE in progress leaves it in progress, or responds OK. -/
theorem stateInv_afterWrite {s : State} (hm : s.mode = .enc) (hv : s.respValid = false) (hp : EncodeInProgress s)
    (ht : ∀ r ∈ s.taken, LegalResponse r) : StateInv (afterWrite s) := by
  have h8 := classify_le s.data
  obtain ⟨hc, hk, hs⟩ := hp
  by_cases heq : s.idx.toNat = s.cls.toNat
  · rw [afterWrite_of_eq heq]
    refine stateInv_of_idle rfl (fun _ => ?_) ht
    have hlegal := legalResponse_ok (i := s.cls.toNat) (x := 0#64) (by omega) (Nat.zero_le _)
    rwa [ofNat_toNat_succ, BitVec.ofNat_toNat, BitVec.setWidth_eq] at hlegal
  · rw [afterWrite_of_ne heq]
    refine stateInv_of_enc hm hv ⟨hc, ?_, hs⟩ ht
    simp only [toNat_add_one (show s.idx.toNat < 15 by omega)]
    omega

/-- Settles O52: it holds; the block is idle and no response stands. -/
theorem invariantHoldsAtReset : Obligations.InvariantHoldsAtReset := stateInv_of_idle rfl nofun nofun

/-- Every case of a step keeps the invariant. -/
theorem StepCase.stateInv {s t : State} (h : StepCase s t) (hs : StateInv s) : StateInv t := by
  obtain ⟨hresp, henc, hdec, htaken⟩ := hs
  have hbusy : s.mode ≠ .idle → s.respValid = false := respValid_eq_false_of_busy ⟨hresp, henc, hdec, htaken⟩
  cases h with
  | reset => exact stateInv_of_idle rfl nofun htaken
  | hold => exact ⟨hresp, henc, hdec, htaken⟩
  | classified hl hm hv w rest hp c hc =>
    exact stateInv_of_idle hm (fun _ => legalResponse_ok hc (Nat.zero_le _)) htaken
  | encodeAccepted hl hm hv w rest hp x hk =>
    have := classify_le x
    exact stateInv_of_enc rfl hv ⟨by simp only [BitVec.toNat_ofNat]; omega, Nat.zero_le _, hk⟩ htaken
  | decodeAccepted hl hm hv w rest hp hq => exact stateInv_of_dec rfl hv ⟨hq, fun h => absurd rfl h⟩ htaken
  | taken hl hm hv =>
    refine stateInv_of_idle hm nofun fun r hr => ?_
    rcases List.mem_append.mp hr with hr | hr
    · exact htaken r hr
    · rw [List.mem_singleton.mp hr]
      exact (hresp hv).2
  | wrote hl hm b held answers hb hk =>
    obtain ⟨hc, hi, -⟩ := henc hm
    exact stateInv_afterWrite hm (hbusy (by simp [hm])) ⟨hc, hi, rfl⟩ htaken
  | writeFailed hl hm held left answers hk =>
    obtain ⟨hc, hi, -⟩ := henc hm
    have := classify_le s.data
    exact stateInv_of_idle rfl (fun _ => legalResponse_error .ioError (by omega) hi) htaken
  | readFailed hl hm a e ha answers consumed hq =>
    obtain ⟨hc, hi⟩ := errorClass_le (hdec hm)
    exact stateInv_of_idle rfl (fun _ => legalResponse_error e hc hi) htaken
  | readLast hl hm b answers consumed hq hk hc =>
    have hlt := readData_lt_literalBits (hdec hm) b
    rw [hk] at hlt
    exact stateInv_of_idle rfl
      (fun _ => legalResponse_ok hc (le_maxForClass_of_lt_literalBits hc hlt)) htaken
  | readMore hl hm b answers consumed hq hk =>
    have hle := idx_le_readClass (hdec hm) b
    have h8 := readClass_le (hdec hm) b
    have hlt := readData_lt_literalBits (hdec hm) b
    have hc : (BitVec.ofNat 4 (readClass b s)).toNat = readClass b s := by rw [BitVec.toNat_ofNat]; omega
    have hi : (s.idx + 1#4).toNat = s.idx.toNat + 1 := toNat_add_one (by omega)
    refine stateInv_of_dec hm (hbusy (by simp [hm])) ⟨rfl, fun _ => ?_⟩ htaken
    simp only [hc, hi]
    exact ⟨by omega, h8, hlt⟩

/-- Settles O53: it holds, by the cases of a step. -/
theorem everyStepKeepsTheInvariant : Obligations.EveryStepKeepsTheInvariant := fun _ _ hs h =>
  (step_cases h).stateInv hs

/-- Settles O54: it holds; the other stops need a response with STATUS 0b11, IDX past CLS or a class above 8. -/
theorem onlyHoldsAndUnattachedStreamsStopAStep : Obligations.OnlyHoldsAndUnattachedStreamsStopAStep := by
  rintro s ⟨hresp, henc, hdec, -⟩
  refine ⟨fun f hf => ?_, fun r hr => ?_⟩
  · have hstop := step_stops (s := s) (by simp [hf])
    rw [hf] at hstop
    cases hstop with
    | waitCommand hr | waitTake hr | waitSource hr | waitSink hr => exact ⟨hr, by simp⟩
    | statusNever hl hm hv hst => exact absurd hst (hresp hv).2.1
    | indexOut hl hm hb =>
      obtain ⟨b, hb'⟩ := encode_byte (henc hm)
      exact absurd (hb.symm.trans hb') (by simp)
    | classOut hl hm b hc => exact absurd (readClass_le (hdec hm) b) hc.not_ge
  · have hstop := step_stops (s := s) (by simp [hr])
    rw [hr] at hstop
    cases hstop with
    | noSink hl hs => exact .inl ⟨rfl, hs⟩
    | noSource hl hs => exact .inr ⟨rfl, hs⟩

end Sys2Proof.Machine
end

section
/-! What a run shows depends only on the commands and the streams' answers (spec/10_state.md R15, R29,
spec/93_implementation_defined.md I9): one step from two states that agree outside gives two such states or one stop, and
so does a run; O55 is this. -/

namespace Sys2Proof.Machine

/-! ### Operations on states that agree outside -/

/-- Idle blocks agree outside if their environments do, and RESP where a response stands. -/
theorem sameOutside_of_idle {s t : State} (hs : s.mode = .idle) (ht : t.mode = .idle)
    (hv : s.respValid = t.respValid) (hl : s.resetLine = t.resetLine) (hp : s.cmdPort = t.cmdPort)
    (hn : s.hostTakes = t.hostTakes) (htk : s.taken = t.taken) (hq : s.source = t.source) (hk : s.sink = t.sink)
    (hr : s.respValid = true → s.resp = t.resp) : SameOutside s t :=
  ⟨hs.trans ht.symm, hv, hl, hp, hn, htk, hq, hk, hr, fun h => absurd (hs.symm.trans h) (by decide),
    fun h => absurd (hs.symm.trans h) (by decide)⟩

section
variable {s t : State} (h : SameOutside s t)
include h

theorem sameOutside_afterLevels (n : Nat) : SameOutside (afterLevels n s) (afterLevels n t) := by
  obtain ⟨hm, hv, hl, hp, hn, htk, hq, hk, hr, he, hd⟩ := h
  exact ⟨hm, hv, congrArg (List.drop n) hl, hp, hn, htk, hq, hk, hr, he, hd⟩

theorem sameOutside_withSource (q : Source) : SameOutside { s with source := some q } { t with source := some q } := by
  obtain ⟨hm, hv, hl, hp, hn, htk, -, hk, hr, he, hd⟩ := h
  exact ⟨hm, hv, hl, hp, hn, htk, rfl, hk, hr, he, hd⟩

theorem sameOutside_withSink (k : Sink) : SameOutside { s with sink := some k } { t with sink := some k } := by
  obtain ⟨hm, hv, hl, hp, hn, htk, hq, -, hr, he, hd⟩ := h
  exact ⟨hm, hv, hl, hp, hn, htk, hq, rfl, hr, he, hd⟩

theorem sameOutside_withCmdPort (rest : List CommandWord) :
    SameOutside { s with cmdPort := rest } { t with cmdPort := rest } := by
  obtain ⟨hm, hv, hl, -, hn, htk, hq, hk, hr, he, hd⟩ := h
  exact ⟨hm, hv, hl, rfl, hn, htk, hq, hk, hr, he, hd⟩

theorem sameOutside_respond (st : Status) (c n : Nibble) (v : Value) :
    SameOutside (respond st c n v s) (respond st c n v t) := by
  obtain ⟨hm, -, hl, hp, hn, htk, hq, hk, -, he, hd⟩ := h
  exact ⟨hm, rfl, hl, hp, hn, htk, hq, hk, fun _ => rfl, he, hd⟩

/-- Taking an error shows IDX, which a command in progress has written. -/
theorem sameOutside_raise (e : ErrorKind) {c d : Nibble} (hc : c = d) (hi : s.idx = t.idx) :
    SameOutside (raise e c s) (raise e d t) := by
  obtain ⟨-, -, hl, hp, hn, htk, hq, hk, -, -, -⟩ := h
  exact sameOutside_of_idle rfl rfl rfl hl hp hn htk hq hk fun _ => by simp [hc, hi]

theorem sameOutside_completeWire (i : Nat) (x : Value) :
    SameOutside (completeWire i x s) (completeWire i x t) := by
  obtain ⟨-, -, hl, hp, hn, htk, hq, hk, -, -, -⟩ := h
  exact sameOutside_of_idle rfl rfl rfl hl hp hn htk hq hk fun _ => rfl

/-- A reset writes free values only where nothing shows them (R118, I9). -/
theorem sameOutside_applyReset : SameOutside (applyReset s) (applyReset t) := by
  obtain ⟨-, -, hl, hp, hn, htk, hq, hk, -, -, -⟩ := h
  exact sameOutside_of_idle rfl rfl rfl hl hp hn htk hq hk nofun

/-- The counting of a write, and its response at the last byte (R90). -/
theorem sameOutside_afterWrite (hm : s.mode = .enc) : SameOutside (afterWrite s) (afterWrite t) := by
  obtain ⟨hmode, hv, hl, hp, hn, htk, hq, hk, hr, he, hd⟩ := h
  obtain ⟨hdata, hcls, hidx⟩ := he hm
  by_cases heq : s.idx.toNat = s.cls.toNat
  · rw [afterWrite_of_eq heq, afterWrite_of_eq (by rw [← hidx, ← hcls, heq])]
    exact sameOutside_of_idle rfl rfl rfl hl hp hn htk hq hk fun _ => by simp [hcls]
  · rw [afterWrite_of_ne heq, afterWrite_of_ne (by rwa [← hidx, ← hcls])]
    exact ⟨hmode, hv, hl, hp, hn, htk, hq, hk, hr, fun _ => ⟨hdata, hcls, by rw [hidx]⟩,
      fun h => absurd (hm.symm.trans h) (by decide)⟩

end

/-! ### Moves and outcomes that agree outside -/

/-- The same move, at states that agree outside. -/
inductive SameMove : Move → Move → Prop where
  | run (i : Instr) {s t : State} (h : SameOutside s t) : SameMove (.run i s) (.run i t)
  | done {s t : State} (h : SameOutside s t) : SameMove (.done s) (.done t)
  | wait (f : Fault) : SameMove (.wait f) (.wait f)
  | stop (f : Fault) : SameMove (.stop f) (.stop f)
  | refuse (r : Refusal) : SameMove (.refuse r) (.refuse r)

/-- The same stop, or next states that agree outside. -/
inductive SameOutcome : Host.Outcome State Fault Refusal → Host.Outcome State Fault Refusal → Prop where
  | next {s t : State} (h : SameOutside s t) : SameOutcome (.next s) (.next t)
  | fault (f : Fault) : SameOutcome (.fault f) (.fault f)
  | refused (r : Refusal) : SameOutcome (.refused r) (.refused r)

theorem SameOutcome.eq_next {s : State} {o : Host.Outcome State Fault Refusal} (h : SameOutcome (.next s) o) :
    ∃ t, o = .next t ∧ SameOutside s t := by
  cases h with
  | next h => exact ⟨_, rfl, h⟩

theorem SameOutcome.eq_fault {f : Fault} {o : Host.Outcome State Fault Refusal} (h : SameOutcome (.fault f) o) :
    o = .fault f := by
  cases h
  rfl

theorem SameOutcome.eq_refused {r : Refusal} {o : Host.Outcome State Fault Refusal} (h : SameOutcome (.refused r) o) :
    o = .refused r := by
  cases h
  rfl

section
variable {s t : State} (h : SameOutside s t)
include h

/-- A meaning reads the operands and the streams alone. -/
theorem sameOutcome_exec (i : Instr) : SameOutcome (exec i s) (exec i t) := by
  have hall := h
  obtain ⟨-, hv, hl, hp, hn, htk, hq, hk, hr, -, -⟩ := hall
  cases i with
  | classify | pclass => exact .next (sameOutside_respond h _ _ _ _)
  | encode x =>
    rcases hs : s.sink with _ | k
    · rw [exec_encode_of_no_sink x hs, exec_encode_of_no_sink x (hk.symm.trans hs)]
      exact .refused _
    · rw [exec_encode_of_sink x (by rw [hs]; rfl), exec_encode_of_sink x (by rw [← hk, hs]; rfl)]
      exact .next ⟨rfl, hv, hl, hp, hn, htk, hq, hk, hr, fun _ => ⟨rfl, rfl, rfl⟩, nofun⟩
  | decode =>
    rcases hs : s.source with _ | q
    · rw [exec_decode_of_no_source hs, exec_decode_of_no_source (hq.symm.trans hs)]
      exact .refused _
    · rw [exec_decode_of_source (by rw [hs]; rfl), exec_decode_of_source (by rw [← hq, hs]; rfl)]
      exact .next ⟨rfl, hv, hl, hp, hn, htk, hq, hk, hr, nofun, fun _ => ⟨rfl, fun h => absurd rfl h⟩⟩
  | vliC0 | vliC1 | vliC2 | vliC3 | vliC4 | vliC5 | vliC6 | vliC7 | vliC8 =>
    exact .next (sameOutside_completeWire h _ _)

/-- The take reads the response that stands (R25). -/
theorem sameMove_hostTake (hm : s.mode = .idle) (hv : s.respValid = true) :
    SameMove (hostTake s) (hostTake t) := by
  obtain ⟨hmode, -, hl, hp, hn, htk, hq, hk, hr, -, -⟩ := h
  unfold hostTake
  rw [← hn, ← hr hv, ← htk]
  split
  · exact .wait _
  · split_ifs
    · exact .stop _
    · exact .done (sameOutside_of_idle hm (hmode.symm.trans hm) rfl hl hp rfl rfl hq hk nofun)

/-- Acceptance reads the command port alone (R70). -/
theorem sameMove_acceptCommand : SameMove (acceptCommand s) (acceptCommand t) := by
  have hall := h
  obtain ⟨-, -, -, hp, -⟩ := hall
  unfold acceptCommand
  rw [← hp]
  split
  · exact .wait _
  · exact .run _ (sameOutside_withCmdPort h _)

/-- A write reads DATA, CLS and IDX, which the ENCODE has written, and the sink (R90). -/
theorem sameMove_encodeStep (hm : s.mode = .enc) : SameMove (encodeStep s) (encodeStep t) := by
  have hall := h
  obtain ⟨-, -, -, -, -, -, -, hk, -, he, -⟩ := hall
  obtain ⟨hdata, hcls, hidx⟩ := he hm
  rcases hb : (encodeValue s.data)[s.idx.toNat]? with _ | b
  · have hbt : (encodeValue t.data)[t.idx.toNat]? = none := by rw [← hdata, ← hidx, hb]
    simp only [encodeStep, hb, hbt]
    exact .stop _
  have hbt : (encodeValue t.data)[t.idx.toNat]? = some b := by rw [← hdata, ← hidx, hb]
  unfold encodeStep sinkWrite
  rw [hb, hbt, ← hk]
  rcases s.sink with _ | ⟨held, _ | ⟨_ | left, rest⟩⟩
  · exact .refuse _
  · exact .wait _
  · exact .done (sameOutside_afterWrite (sameOutside_withSink h _) hm)
  · exact .done (sameOutside_raise (sameOutside_withSink h _) _ hcls hidx)

/-- A byte is read into IDX, and into CLS and DATA where an earlier byte has written them (R99). -/
theorem sameMove_afterRead (hm : s.mode = .dec) (b : Byte) : SameMove (afterRead b s) (afterRead b t) := by
  have hall := h
  obtain ⟨hmode, hv, hl, hp, hn, htk, hq, hk, hr, -, hd⟩ := hall
  obtain ⟨hidx, hlater⟩ := hd hm
  have hclass : readClass b s = readClass b t := by
    unfold readClass
    rw [← hidx]
    split_ifs with h0
    · rfl
    · rw [(hlater h0).2]
  have hdata : readData b s = readData b t := by
    unfold readData
    rw [← hidx]
    split_ifs with h0
    · rfl
    · rw [(hlater h0).1]
  unfold afterRead
  rw [← hidx, ← hclass, ← hdata]
  split_ifs
  · split
    · exact .run _ h
    · exact .stop _
  · exact .done ⟨hmode, hv, hl, hp, hn, htk, hq, hk, hr, fun _ => ⟨rfl, rfl, rfl⟩, fun _ => ⟨rfl, fun _ => ⟨rfl, rfl⟩⟩⟩

/-- An error in a DECODE shows CLS only where a byte has written it (R105). -/
theorem errorClass_eq_of_sameOutside (hm : s.mode = .dec) : errorClass s = errorClass t := by
  obtain ⟨-, -, -, -, -, -, -, -, -, -, hd⟩ := h
  obtain ⟨hidx, hlater⟩ := hd hm
  unfold errorClass
  rw [← hidx]
  split_ifs with h0
  · rfl
  · exact (hlater h0).2

/-- A read reads IDX, what an earlier byte has written, and the source (R99). -/
theorem sameMove_decodeStep (hm : s.mode = .dec) : SameMove (decodeStep s) (decodeStep t) := by
  have hall := h
  obtain ⟨-, -, -, -, -, -, hq, -, -, -, hd⟩ := hall
  have herr (q : Source) : errorClass { s with source := some q } = errorClass { t with source := some q } :=
    errorClass_eq_of_sameOutside (sameOutside_withSource h q) hm
  unfold decodeStep srcRead
  rw [← hq]
  rcases s.source with _ | ⟨_ | ⟨b | _ | _, rest⟩, consumed⟩
  · exact .refuse _
  · exact .wait _
  · exact sameMove_afterRead (sameOutside_withSource h _) hm b
  · exact .done (sameOutside_raise (sameOutside_withSource h _) _ (herr _) (hd hm).1)
  · exact .done (sameOutside_raise (sameOutside_withSource h _) _ (herr _) (hd hm).1)

theorem sameMove_blockMove : SameMove (blockMove s) (blockMove t) := by
  have hall := h
  obtain ⟨hmode, hvalid, -⟩ := hall
  rcases hm : s.mode with _ | _ | _
  · rcases hv : s.respValid with _ | _
    · rw [blockMove_ready ((cmdReady_iff s).mpr ⟨hm, hv⟩),
        blockMove_ready ((cmdReady_iff t).mpr ⟨hmode.symm.trans hm, hvalid.symm.trans hv⟩)]
      exact sameMove_acceptCommand h
    · rw [blockMove_take hm hv, blockMove_take (hmode.symm.trans hm) (hvalid.symm.trans hv)]
      exact sameMove_hostTake h hm hv
  · rw [blockMove_enc hm, blockMove_enc (hmode.symm.trans hm)]
    exact sameMove_encodeStep h hm
  · rw [blockMove_dec hm, blockMove_dec (hmode.symm.trans hm)]
    exact sameMove_decodeStep h hm

/-- One step from states that agree outside. -/
theorem sameOutcome_step : SameOutcome (step s) (step t) := by
  have hall := h
  obtain ⟨-, -, hl, -⟩ := hall
  rcases reset_or_low s with ⟨line, hr⟩ | hlow
  · have hrt : t.resetLine = true :: line := hl.symm.trans hr
    have happly := sameOutside_applyReset (sameOutside_afterLevels h 1)
    rw [afterLevels, afterLevels, hr, hrt] at happly
    rw [step_of_reset hr, step_of_reset hrt]
    exact .next happly
  · have hafter := sameOutside_afterLevels h 1
    rw [step_of_low hlow, step_of_low (by rw [ResetLow, ← hl]; exact hlow), ← hl]
    have hmove := sameMove_blockMove hafter
    generalize blockMove (afterLevels 1 s) = m at hmove ⊢
    generalize blockMove (afterLevels 1 t) = m' at hmove ⊢
    cases hmove with
    | run i hrun => exact sameOutcome_exec hrun i
    | done hdone => exact .next hdone
    | wait f =>
      dsimp only
      split_ifs
      · exact .fault f
      · exact .next hafter
    | stop f => exact .fault f
    | refuse r => exact .refused r

end

/-! ### Runs -/

/-- A run from states that agree outside. -/
theorem sameOutcome_run (n : Nat) {s t : State} (h : SameOutside s t) : SameOutcome (run n s) (run n t) := by
  induction n generalizing s t with
  | zero => exact .next h
  | succ n ih =>
    have hstep := sameOutcome_step h
    unfold run
    generalize step s = o at hstep ⊢
    generalize step t = o' at hstep ⊢
    cases hstep with
    | next h' => exact ih h'
    | fault f => exact .fault f
    | refused r => exact .refused r

/-- What the outside sees of states that agree outside is the same. -/
theorem observe_eq_and_hostView_eq {s t : State} (h : SameOutside s t) :
    observe s = observe t ∧ hostView s = hostView t := by
  obtain ⟨hm, hv, -, -, -, htk, hq, hk, hr, -, -⟩ := h
  constructor
  · simp only [observe, htk, hq, hk]
  · unfold hostView cmdReady
    rw [← hm, ← hv]
    split_ifs with hvalid
    · rw [hr hvalid]
    · rfl

/-- Settles O55: it holds, by induction on the steps. -/
theorem unwrittenFieldsNeverReachTheOutside : Obligations.UnwrittenFieldsNeverReachTheOutside := by
  intro n s t h
  have hrun := sameOutcome_run n h
  refine ⟨fun s' hs => ?_, fun f hs => ?_, fun r hs => ?_⟩ <;> rw [hs] at hrun
  · obtain ⟨t', ht, h'⟩ := hrun.eq_next
    exact ⟨t', ht, h', observe_eq_and_hostView_eq h'⟩
  · exact hrun.eq_fault
  · exact hrun.eq_refused

end Sys2Proof.Machine
end

section
/-! Platforms (spec/10_state.md R30, spec/60_exceptions.md R114, spec/93_implementation_defined.md I17): a schedule takes
each of a platform's blocks where its own steps alone would; O56 is this. -/

namespace Sys2Proof.Machine

/-- A platform's step does not read the map (I17). -/
theorem Platform.step_withMap {k : Nat} {p q : Platform} (h : Platform.step k p = .next q) (m : PlatformMap) :
    Platform.step k { p with map := m } = .next { q with map := m } := by
  obtain ⟨s, t, hs, ht, rfl⟩ := Platform.step_next h
  simp only [Platform.step, hs, ht]

/-- The first step of a schedule that a platform runs to its end. -/
theorem Platform.run_cons {k : Nat} {ks : List Nat} {p q : Platform} (h : Platform.run (k :: ks) p = .next q) :
    ∃ r, Platform.step k p = .next r ∧ Platform.run ks r = .next q := by
  unfold Platform.run at h
  split at h
  · exact ⟨_, ‹_›, h⟩
  · cases h
  · cases h

/-- A schedule runs to the same instances with any map. -/
theorem Platform.run_withMap {schedule : List Nat} {p q : Platform} (h : Platform.run schedule p = .next q)
    (m : PlatformMap) : Platform.run schedule { p with map := m } = .next { q with map := m } := by
  induction schedule generalizing p with
  | nil => cases h; rfl
  | cons k ks ih =>
    obtain ⟨r, hstep, hrun⟩ := Platform.run_cons h
    rw [Platform.run, Platform.step_withMap hstep]
    exact ih hrun

/-- A schedule keeps the number of instances and the map. -/
theorem Platform.run_length_map {schedule : List Nat} {p q : Platform} (h : Platform.run schedule p = .next q) :
    q.instances.length = p.instances.length ∧ q.map = p.map := by
  induction schedule generalizing p with
  | nil => cases h; exact ⟨rfl, rfl⟩
  | cons k ks ih =>
    obtain ⟨r, hstep, hrun⟩ := Platform.run_cons h
    obtain ⟨s, t, -, -, rfl⟩ := Platform.step_next hstep
    simpa using ih hrun

/-- Each block of a platform takes as many steps as the schedule names it (R114). -/
theorem Platform.run_alone {schedule : List Nat} {p q : Platform} (h : Platform.run schedule p = .next q) {k : Nat}
    {s : State} (hs : p.instances[k]? = some s) :
    ∃ t, Machine.run (schedule.count k) s = .next t ∧ q.instances[k]? = some t := by
  induction schedule generalizing p s with
  | nil => cases h; exact ⟨s, rfl, hs⟩
  | cons j ks ih =>
    obtain ⟨r, hstep, hrun⟩ := Platform.run_cons h
    obtain ⟨u, v, hu, hv, rfl⟩ := Platform.step_next hstep
    by_cases hjk : j = k
    · subst hjk
      obtain rfl := Option.some.inj (hu.symm.trans hs)
      obtain ⟨hlt, -⟩ := List.getElem?_eq_some_iff.mp hu
      obtain ⟨t, ht, hq⟩ := ih hrun (List.getElem?_set_self hlt)
      exact ⟨t, by rw [List.count_cons_self, run_succ _ hv, ht], hq⟩
    · obtain ⟨t, ht, hq⟩ := ih hrun ((List.getElem?_set_ne hjk).trans hs)
      exact ⟨t, by rw [List.count_cons_of_ne hjk, ht], hq⟩

/-- Settles O56: it holds, by induction on the schedule for each part. -/
theorem instancesRunAsTheyWouldAlone : Obligations.InstancesRunAsTheyWouldAlone := fun _ _ _ h =>
  ⟨(Platform.run_length_map h).1, (Platform.run_length_map h).2, fun _ _ hs => Platform.run_alone h hs,
    Platform.run_withMap h⟩

end Sys2Proof.Machine
end
